-- ==== Sys2Proof/Word.lean ====
section
/-! DEFINITION. The word types of the CORE (00_scope.md R7, R10, R11): every value is an unsigned bit vector. -/

namespace Sys2Proof

/-- One byte: a memory cell, a V register, a timer, the immediate KK (R7, R20, R29, R72). -/
abbrev Byte := BitVec 8

/-- One 16-bit word: an instruction, PC, I, a stack slot, the 16 key bits (R7, R24, R26, R27, R31). -/
abbrev Word := BitVec 16

/-- A 4-bit instruction field (R71). -/
abbrev Nibble := BitVec 4

/-- The 12-bit immediate NNN (R71). -/
abbrev Imm12 := BitVec 12

/-- The number of a general register, V0 to VF (R20). -/
abbrev Reg := Fin 16

/-- VF, storage slot 0xF of the register file, general register and flag (R21). -/
abbrev VF : Reg := 15

/-- V0, the first register of the file (R20). -/
abbrev V0 : Reg := 0

end Sys2Proof
end

