-- ==== Sys2Proof/Config.lean ====
section
/-! DEFINITION. The CORE's fixed numbers (00_scope.md R7), its one open parameter FONT_BITMAPS (R8) and the free
values at its input ports (40_cycle_engine.md R90, R99). A constant without a body is a value nothing constrains. -/

namespace Sys2Proof.Config

/-- MEM_SIZE: 4096 bytes, addresses 0x000-0xFFF (R7, R50). -/
abbrev memSize : Nat := 4096

/-- The bytes of the built-in font: 16 glyphs of 5 bytes at 0x000-0x04F (R7, R60). -/
abbrev fontSize : Nat := 80

/-- FONT_STRIDE: bytes per glyph (R7, R162). -/
abbrev fontStride : Nat := 5

/-- PROG_BASE: where the loader puts the program and where PC starts (R7, R36, R251). -/
abbrev progBase : Nat := 0x200

/-- PROG_MAX: the longest program the loader accepts (R7, R251). -/
abbrev progMax : Nat := 3584

/-- FONT_BITMAPS, the 80 bytes preloaded at 0x000-0x04F: open, so no proof can see one of them (R8, D19; log 1).
SAFE. -/
opaque fontBitmaps : Vector Byte fontSize

/-- The `key` port in the n-th cycle, where State lists no sample for it: any value (R90, R99; log 2). SAFE. -/
opaque freeKey : Nat → Word

/-- The `rnd` port in the n-th cycle, where State lists no sample for it: any value (R90, R143, D28; log 2). SAFE. -/
opaque freeRnd : Nat → Byte

end Sys2Proof.Config
end

