-- ==== Sys2Proof/Syntax.lean ====
section
/-! DEFINITION. The 34 instructions of 30_encoding.md R73, one constructor per row of spec/opcode_table.json.
Operands are the fields of R71 that the row's pattern names; their types carry the fields' widths. -/

namespace Sys2Proof

inductive Instr where
  /-- 00E0, clear the framebuffer (R180). -/
  | cls
  /-- 00EE, return from subroutine (R110). -/
  | ret
  /-- 1NNN, jump (R111). -/
  | jp (nnn : Imm12)
  /-- 2NNN, call subroutine (R112). -/
  | call (nnn : Imm12)
  /-- 3XKK, skip if VX equals the immediate (R113). -/
  | seImm (x : Reg) (kk : Byte)
  /-- 4XKK, skip if VX differs from the immediate (R114). -/
  | sneImm (x : Reg) (kk : Byte)
  /-- 5XY0, skip if VX equals VY (R115). -/
  | seReg (x y : Reg)
  /-- 6XKK, load immediate (R131). -/
  | ldImm (x : Reg) (kk : Byte)
  /-- 7XKK, add immediate (R132). -/
  | addImm (x : Reg) (kk : Byte)
  /-- 8XY0, copy (R133). -/
  | ldReg (x y : Reg)
  /-- 8XY1, bitwise OR (R134). -/
  | orReg (x y : Reg)
  /-- 8XY2, bitwise AND (R135). -/
  | andReg (x y : Reg)
  /-- 8XY3, bitwise XOR (R136). -/
  | xorReg (x y : Reg)
  /-- 8XY4, add with carry out (R138). -/
  | addReg (x y : Reg)
  /-- 8XY5, subtract with not-borrow (R139). -/
  | subReg (x y : Reg)
  /-- 8XY6, shift right by one; the Y field is don't-care and kept so that the word is not lost (R74, R140; log 12). -/
  | shr (x y : Reg)
  /-- 8XY7, reverse subtract with not-borrow (R141). -/
  | subn (x y : Reg)
  /-- 8XYE, shift left by one; the Y field is don't-care and kept so that the word is not lost (R74, R142; log 12). -/
  | shl (x y : Reg)
  /-- 9XY0, skip if VX differs from VY (R116). -/
  | sneReg (x y : Reg)
  /-- ANNN, set the index register (R160). -/
  | ldI (nnn : Imm12)
  /-- BNNN, jump with offset V0 (R118). -/
  | jpV0 (nnn : Imm12)
  /-- CXKK, masked random byte (R143). -/
  | rnd (x : Reg) (kk : Byte)
  /-- DXYN, draw a sprite of N rows (R181). -/
  | drw (x y : Reg) (n : Nibble)
  /-- EX9E, skip if the key is pressed (R200). -/
  | skp (x : Reg)
  /-- EXA1, skip if the key is not pressed (R201). -/
  | sknp (x : Reg)
  /-- FX07, read the delay timer (R202). -/
  | ldVxDt (x : Reg)
  /-- FX0A, wait for a key press (R206). -/
  | ldVxK (x : Reg)
  /-- FX15, set the delay timer (R203). -/
  | ldDtVx (x : Reg)
  /-- FX18, set the sound timer (R204). -/
  | ldStVx (x : Reg)
  /-- FX1E, add VX to the index register (R161). -/
  | addI (x : Reg)
  /-- FX29, point the index register at a font glyph (R162). -/
  | ldF (x : Reg)
  /-- FX33, store binary-coded decimal (R163). -/
  | ldB (x : Reg)
  /-- FX55, store V0 to VX (R164). -/
  | storeRegs (x : Reg)
  /-- FX65, load V0 to VX (R165). -/
  | loadRegs (x : Reg)
deriving DecidableEq, Repr

end Sys2Proof
end

