-- ==== Sys2Proof/Decode.lean ====
section
/-! DEFINITION. The decoder (30_encoding.md R79) and the encoder, both from the tables of 30_encoding.md; the byte order
of an instruction (20_memory.md R54); the host's decodeTableWord. -/

namespace Sys2Proof

/-! ## Byte order (R54) -/

/-- The most significant byte of a word: it stands at the lower address (R54). -/
def hiByte (w : Word) : Byte := w.extractLsb' 8 8

/-- The least significant byte of a word: it stands at the higher address (R54). -/
def loByte (w : Word) : Byte := w.extractLsb' 0 8

/-- The 16-bit instruction formed from its two bytes, high byte first (R54). -/
def joinBytes (hi lo : Byte) : Word := hi ++ lo

/-- The two bytes of a word as memory holds them, in rising address order (R54). -/
def wordBytes (w : Word) : List Byte := [hiByte w, loByte w]

/-! ## Fields (R71) -/

/-- `instr[15:12]`, the opcode family (R71). -/
def fieldFamily (w : Word) : Nibble := w.extractLsb' 12 4

/-- `instr[11:8]`, register operand X (R71). -/
def fieldX (w : Word) : Reg := (w.extractLsb' 8 4).toFin

/-- `instr[7:4]`, register operand Y (R71). -/
def fieldY (w : Word) : Reg := (w.extractLsb' 4 4).toFin

/-- `instr[3:0]`, sprite height or secondary selector (R71). -/
def fieldN (w : Word) : Nibble := w.extractLsb' 0 4

/-- `instr[7:0]`, 8-bit immediate or secondary selector (R71). -/
def fieldKK (w : Word) : Byte := w.extractLsb' 0 8

/-- `instr[11:0]`, 12-bit immediate (R71). -/
def fieldNNN (w : Word) : Imm12 := w.extractLsb' 0 12

/-! ## Decode (R79) -/

/-- The 35 results of decoding a word: one of the 34 instructions, or unknown with the word (R79). -/
inductive Decoded where
  | instr (i : Instr)
  | unknown (w : Word)
deriving DecidableEq, Repr

/-- Family 8, by its secondary selector N (R74, R79). -/
def decodeFamily8 (w : Word) : Decoded :=
  let x := fieldX w
  let y := fieldY w
  match (fieldN w).toNat with
  | 0x0 => .instr (.ldReg x y)
  | 0x1 => .instr (.orReg x y)
  | 0x2 => .instr (.andReg x y)
  | 0x3 => .instr (.xorReg x y)
  | 0x4 => .instr (.addReg x y)
  | 0x5 => .instr (.subReg x y)
  | 0x6 => .instr (.shr x y)
  | 0x7 => .instr (.subn x y)
  | 0xE => .instr (.shl x y)
  | _ => .unknown w

/-- Family F, by its secondary selector KK (R74, R79). -/
def decodeFamilyF (w : Word) : Decoded :=
  let x := fieldX w
  if fieldKK w = 0x07 then .instr (.ldVxDt x)
  else if fieldKK w = 0x0A then .instr (.ldVxK x)
  else if fieldKK w = 0x15 then .instr (.ldDtVx x)
  else if fieldKK w = 0x18 then .instr (.ldStVx x)
  else if fieldKK w = 0x1E then .instr (.addI x)
  else if fieldKK w = 0x29 then .instr (.ldF x)
  else if fieldKK w = 0x33 then .instr (.ldB x)
  else if fieldKK w = 0x55 then .instr (.storeRegs x)
  else if fieldKK w = 0x65 then .instr (.loadRegs x)
  else .unknown w

/-- Decode a word, total, reading nothing but the word (R79). -/
def decodeWord (w : Word) : Decoded :=
  let x := fieldX w
  let y := fieldY w
  let n := fieldN w
  let kk := fieldKK w
  let nnn := fieldNNN w
  match (fieldFamily w).toNat with
  | 0x0 => if w = 0x00E0 then .instr .cls else if w = 0x00EE then .instr .ret else .unknown w
  | 0x1 => .instr (.jp nnn)
  | 0x2 => .instr (.call nnn)
  | 0x3 => .instr (.seImm x kk)
  | 0x4 => .instr (.sneImm x kk)
  | 0x5 => if n = 0 then .instr (.seReg x y) else .unknown w
  | 0x6 => .instr (.ldImm x kk)
  | 0x7 => .instr (.addImm x kk)
  | 0x8 => decodeFamily8 w
  | 0x9 => if n = 0 then .instr (.sneReg x y) else .unknown w
  | 0xA => .instr (.ldI nnn)
  | 0xB => .instr (.jpV0 nnn)
  | 0xC => .instr (.rnd x kk)
  | 0xD => .instr (.drw x y n)
  | 0xE => if kk = 0x9E then .instr (.skp x) else if kk = 0xA1 then .instr (.sknp x) else .unknown w
  | _ => decodeFamilyF w

/-- What decoding a byte sequence gives: an instruction or an unknown word, each with the bytes after it, or too few
bytes for a word. -/
inductive DecodedBytes where
  | instr (i : Instr) (rest : List Byte)
  | unknownOpcode (w : Word) (rest : List Byte)
  | truncated (bytes : List Byte)
deriving DecidableEq, Repr

/-- Decode the first instruction of a byte sequence: always two bytes, high byte first (R54, R70). -/
def decodeBytes : List Byte → DecodedBytes
  | hi :: lo :: rest =>
    match decodeWord (joinBytes hi lo) with
    | .instr i => .instr i rest
    | .unknown w => .unknownOpcode w rest
  | bytes => .truncated bytes

/-- The instruction the decoder reads from an instruction whose bits are `w`, numbered as spec/opcode_table.json
numbers them; laid out as memory holds it (R54) and given to `decodeBytes`. -/
def decodeTableWord (nbits w : Nat) : Option Instr :=
  match decodeBytes (wordBytes (BitVec.ofNat 16 (w % 2 ^ nbits))) with
  | .instr i _ => some i
  | .unknownOpcode _ _ => none
  | .truncated _ => none

/-! ## Encode (R70, R71, R73) -/

/-- A register number as its 4-bit field (R71, R72). -/
def regField (r : Reg) : Nibble := BitVec.ofFin r

/-- A word with the fields family, X, Y, N (R70). -/
def wordXYN (family : Nibble) (x y : Reg) (n : Nibble) : Word := family ++ regField x ++ regField y ++ n

/-- A word with the fields family, X, KK (R70). -/
def wordXKK (family : Nibble) (x : Reg) (kk : Byte) : Word := family ++ regField x ++ kk

/-- A word with the fields family, NNN (R70). -/
def wordNNN (family : Nibble) (nnn : Imm12) : Word := family ++ nnn

/-- The word of an instruction, from its pattern in the opcode map (R73). -/
def encode : Instr → Word
  | .cls => 0x00E0
  | .ret => 0x00EE
  | .jp nnn => wordNNN 0x1 nnn
  | .call nnn => wordNNN 0x2 nnn
  | .seImm x kk => wordXKK 0x3 x kk
  | .sneImm x kk => wordXKK 0x4 x kk
  | .seReg x y => wordXYN 0x5 x y 0x0
  | .ldImm x kk => wordXKK 0x6 x kk
  | .addImm x kk => wordXKK 0x7 x kk
  | .ldReg x y => wordXYN 0x8 x y 0x0
  | .orReg x y => wordXYN 0x8 x y 0x1
  | .andReg x y => wordXYN 0x8 x y 0x2
  | .xorReg x y => wordXYN 0x8 x y 0x3
  | .addReg x y => wordXYN 0x8 x y 0x4
  | .subReg x y => wordXYN 0x8 x y 0x5
  | .shr x y => wordXYN 0x8 x y 0x6
  | .subn x y => wordXYN 0x8 x y 0x7
  | .shl x y => wordXYN 0x8 x y 0xE
  | .sneReg x y => wordXYN 0x9 x y 0x0
  | .ldI nnn => wordNNN 0xA nnn
  | .jpV0 nnn => wordNNN 0xB nnn
  | .rnd x kk => wordXKK 0xC x kk
  | .drw x y n => wordXYN 0xD x y n
  | .skp x => wordXKK 0xE x 0x9E
  | .sknp x => wordXKK 0xE x 0xA1
  | .ldVxDt x => wordXKK 0xF x 0x07
  | .ldVxK x => wordXKK 0xF x 0x0A
  | .ldDtVx x => wordXKK 0xF x 0x15
  | .ldStVx x => wordXKK 0xF x 0x18
  | .addI x => wordXKK 0xF x 0x1E
  | .ldF x => wordXKK 0xF x 0x29
  | .ldB x => wordXKK 0xF x 0x33
  | .storeRegs x => wordXKK 0xF x 0x55
  | .loadRegs x => wordXKK 0xF x 0x65

/-- The bytes of an instruction as memory holds them (R54). -/
def encodeBytes (i : Instr) : List Byte := wordBytes (encode i)

end Sys2Proof
end

