-- ==== Sys2Proof/Machine/State.lean ====
section
/-! DEFINITION. What the CORE holds (10_state.md), its state after reset (R36), the causes of a fault
(60_exceptions.md R220) and the two reasons types of Host/Core.lean. -/

namespace Sys2Proof.Machine

/-- The 4096-byte memory (20_memory.md R50): the cells written since reset, in canonical form (`Memory.wf`), over the
reset contents, which the font parameter fixes (R36, R60; log 1, log 3). -/
structure Memory where
  /-- FONT_BITMAPS, the parameter; no move writes it (R8). -/
  font : Vector Byte Config.fontSize
  cells : List Host.Cell
deriving DecidableEq, Repr

/-- The framebuffer, 32 rows of 64 pixels, `FB[y][x]` (R30). -/
abbrev FrameBuffer := Vector (Vector Bool 64) 32

/-- What the host presents at the input ports `key` and `rnd` in one cycle (40_cycle_engine.md R90, R99). -/
structure PortSample where
  key : Word
  rnd : Byte
deriving DecidableEq, Repr

structure State where
  /-- V0 to VF; VF is slot 15 (R20, R21). -/
  v : Vector Byte 16
  /-- The index register I (R26). -/
  i : Word
  /-- The program counter (R24, R25). -/
  pc : Word
  /-- SP, how many stack entries are in use, 0 to 16 (R27; log 8). -/
  sp : Fin 17
  /-- STACK[0] to STACK[15] (R27). -/
  stack : Vector Word 16
  /-- The delay timer (R29). -/
  dt : Byte
  /-- The sound timer (R29). -/
  st : Byte
  /-- Memory (R50). -/
  mem : Memory
  /-- The framebuffer (R30). -/
  fb : FrameBuffer
  /-- KEY_PREV, the key snapshot of the last committed cycle (R32). -/
  keyPrev : Word
  /-- WAITING (R33). -/
  waiting : Bool
  /-- FAULTED (R34). -/
  faulted : Bool
  /-- FAULT_CODE (R34, R220). -/
  faultCode : BitVec 3
  /-- FAULT_PC (R34). -/
  faultPc : Word
  /-- FAULT_INSTR (R34). -/
  faultInstr : Word
  /-- MODEL's own: the port samples of the cycles to come, oldest first (log 2). -/
  inputs : List PortSample
  /-- MODEL's own: the number of cycles run, the index of the free port samples (log 2). -/
  cycle : Nat
  /-- MODEL's own: no cycle and no load since reset, so `load` has its move (R251, R254; log 5). -/
  loadOpen : Bool
deriving DecidableEq, Repr

/-- Why a step stops without a next state: never. Every fault of the CORE has an entry the spec describes (R223), so
it is a next state, and a stopped CORE's step changes nothing (R91); log 4. -/
inductive Fault where
deriving DecidableEq, Repr

inductive Refusal where
  /-- An instruction without a meaning: raised by no arm of exec, every instruction has one. SAFE. -/
  | notModelled (mnemonic : String)
  /-- `load` after the first cycle or a second `load` since reset: raised by `loadProgram`, never by a step; the
  spec gives it no move (R251, R254, U23; log 5). SAFE. -/
  | loadOutsideWindow
deriving DecidableEq, Repr

/-- The seven faults (R220). -/
inductive Cause where
  | stackOverflow
  | stackUnderflow
  | unknownOpcode
  | addressOutOfRange
  | fetchOutOfRange
  | keyIndexOutOfRange
  | loadError
deriving DecidableEq, Repr

/-- The reset values of R36, for the font the parameter gives. -/
def State.resetWith (font : Vector Byte Config.fontSize) : State where
  v := .replicate 16 0
  i := 0
  pc := 0x200
  sp := 0
  stack := .replicate 16 0
  dt := 0
  st := 0
  mem := { font := font, cells := [] }
  fb := .replicate 32 (.replicate 64 false)
  keyPrev := 0
  waiting := false
  faulted := false
  faultCode := 0
  faultPc := 0
  faultInstr := 0
  inputs := []
  cycle := 0
  loadOpen := true

/-- The CORE right after reset (R36, R250), for the open font (R8). -/
def State.reset : State := State.resetWith Config.fontBitmaps

end Sys2Proof.Machine
end

