-- ==== Sys2Proof/Machine/Ops.lean ====
section
/-! DEFINITION. The named operations over memory, registers, stack, framebuffer and ports; the end of a cycle
(40_cycle_engine.md R97-R100); taking a fault (60_exceptions.md R223) and, beside it, the one way out of it, reset
(R226). -/

namespace Sys2Proof.Machine

/-- What a meaning and a step answer. -/
abbrev Result := Host.Outcome State Fault Refusal

/-! ## Memory (20_memory.md) -/

/-- What address `a` reads as while nothing has been written there since reset: the font below 0x050, zero elsewhere
(R36, R60; log 3). -/
def Memory.resetByte (m : Memory) (a : Nat) : Byte := if h : a < Config.fontSize then m.font[a] else 0

/-- The byte listed for address `a`, if any. -/
def lookupCell : List Host.Cell → Nat → Option Byte
  | [], _ => none
  | (k, b) :: l, a => if k = a then some b else lookupCell l a

/-- Put a cell in its place by address, replacing the one there. -/
def insertCell (a : Nat) (b : Byte) : List Host.Cell → List Host.Cell
  | [] => [(a, b)]
  | (k, c) :: l =>
    if a < k then (a, b) :: (k, c) :: l
    else if k = a then (a, b) :: l
    else (k, c) :: insertCell a b l

/-- Leave out the cell of address `a`. -/
def eraseCell (a : Nat) (l : List Host.Cell) : List Host.Cell := l.filter (fun c => c.1 ≠ a)

/-- `MemRead(a, 1)`, for an address of the memory (R51). -/
def Memory.read (m : Memory) (a : Nat) : Byte := (lookupCell m.cells a).getD (m.resetByte a)

/-- `MemWrite(a, 1, b)`, for an address of the memory (R52); a byte equal to the reset content takes no cell. -/
def Memory.write (m : Memory) (a : Nat) (b : Byte) : Memory :=
  { m with cells := if b = m.resetByte a then eraseCell a m.cells else insertCell a b m.cells }

/-- The canonical form of the cells: addresses strictly rising and inside the memory, no byte equal to the reset
content. -/
abbrev Memory.wf (m : Memory) : Prop :=
  m.cells.Pairwise (fun c d => c.1 < d.1) ∧ ∀ c ∈ m.cells, c.1 < Config.memSize ∧ c.2 ≠ m.resetByte c.1

/-- The `n` bytes from address `a` up (R55). -/
def Memory.readBytes (m : Memory) (a : Nat) : Nat → List Byte
  | 0 => []
  | n + 1 => m.read a :: m.readBytes (a + 1) n

/-- Store bytes from address `a` up, in rising address order (R55). -/
def Memory.writeBytes (m : Memory) (a : Nat) : List Byte → Memory
  | [] => m
  | b :: bs => (m.write a b).writeBytes (a + 1) bs

/-- Every one of the `n` addresses from `a` up exists: none is above 0xFFF (R53). -/
def inMemory (a n : Nat) : Bool := n = 0 || a + n ≤ Config.memSize

/-- The `n` bytes from `a` up, none where one of the addresses is above 0xFFF (R53). -/
def Memory.load? (m : Memory) (a n : Nat) : Option (List Byte) :=
  if inMemory a n then some (m.readBytes a n) else none

/-- Store bytes from `a` up; where one of the addresses is above 0xFFF nothing is stored (R53). -/
def Memory.store? (m : Memory) (a : Nat) (bs : List Byte) : Option Memory :=
  if inMemory a bs.length then some (m.writeBytes a bs) else none

/-! ## Registers (10_state.md) -/

/-- Read `V[r]` (R12, R20). -/
def State.reg (s : State) (r : Reg) : Byte := s.v[r.val]

/-- `V[r] <- b` (R12, R20); no register is hard-wired. -/
def State.setReg (s : State) (r : Reg) (b : Byte) : State := { s with v := s.v.set r.val b }

/-- Write consecutive registers from index `k` up. -/
def setRegsFrom (v : Vector Byte 16) (k : Nat) : List Byte → Vector Byte 16
  | [] => v
  | b :: bs => setRegsFrom (v.setIfInBounds k b) (k + 1) bs

/-- `STACK[j]` (R12, R27). -/
def State.slot (s : State) (j : Fin 16) : Word := s.stack[j.val]

/-- Push, where a slot is free: write `STACK[SP]`, then SP + 1; none at SP = 16 (R27). -/
def State.push? (s : State) (w : Word) : Option State :=
  if h : s.sp.val < 16 then
    some { s with stack := s.stack.set s.sp.val w, sp := ⟨s.sp.val + 1, by omega⟩ }
  else none

/-- Pop, where an entry is in use: SP - 1, then read `STACK[SP]`; none at SP = 0 (R27). -/
def State.pop? (s : State) : Option (Word × State) :=
  if h : 0 < s.sp.val then
    some (s.stack[s.sp.val - 1]'(by have := s.sp.isLt; omega), { s with sp := ⟨s.sp.val - 1, by omega⟩ })
  else none

/-! ## Framebuffer (R30) -/

/-- `FB[y][x]` (R12, R30). -/
def FrameBuffer.pixel (fb : FrameBuffer) (y : Fin 32) (x : Fin 64) : Bool := fb[y.val][x.val]

/-- `FB[y][x] <- FB[y][x] ^ 1`. -/
def FrameBuffer.flip (fb : FrameBuffer) (y : Fin 32) (x : Fin 64) : FrameBuffer :=
  fb.set y.val (fb[y.val].set x.val (!fb[y.val][x.val]))

/-- Every pixel 0 (R180). -/
def clearFrame : FrameBuffer := .replicate 32 (.replicate 64 false)

/-! ## Input ports (40_cycle_engine.md R90, R99) -/

/-- What the ports carry in the next cycle: the oldest sample listed; where none is, a free value (log 2). -/
def State.sample (s : State) : PortSample :=
  match s.inputs with
  | p :: _ => p
  | [] => ⟨Config.freeKey s.cycle, Config.freeRnd s.cycle⟩

/-- KEY, the key snapshot of this cycle (R31, R99). -/
def State.key (s : State) : Word := s.sample.key

/-- RND, the random byte of this cycle (R99, R143). -/
def State.rnd (s : State) : Byte := s.sample.rnd

/-- What the step adds around an executed cycle, on the model's own fields alone: the sample is used up, the cycle is
counted, `load` has no move any more (R251, R254; log 2, log 5). -/
def State.closeCycle (s : State) : State :=
  { s with inputs := s.inputs.tail, cycle := s.cycle + 1, loadOpen := false }

/-! ## The end of a cycle (R97 to R100) -/

/-- The PC class of R97. -/
inductive PcClass where
  | next
  | skip (c : Bool)
  | jump (t : Word)
  | wait
deriving DecidableEq, Repr

/-- The PC update (R97). -/
def advancePc : PcClass → Word → Word
  | .next, pc => pc + 2
  | .skip c, pc => pc + (if c then 4 else 2)
  | .jump t, _ => t
  | .wait, pc => pc

/-- One timer's tick: down by one, staying at 0 (R232). -/
def tickTimer (t : Byte) : Byte := if t = 0 then 0 else t - 1

/-- The timer phase, on the values the execute step left; a waiting cycle has none (R98, R232, R233). -/
def timerPhase (c : PcClass) (s : State) : State :=
  match c with
  | .wait => s
  | _ => { s with dt := tickTimer s.dt, st := tickTimer s.st }

/-- The cycle is a waiting cycle of FX0A (R14, R97). -/
def PcClass.waits : PcClass → Bool
  | .wait => true
  | _ => false

/-- Commit the staged state `s`: PC update, timer phase, KEY_PREV, WAITING (R92, R97 to R100). -/
def commit (c : PcClass) (s : State) : State :=
  let s := timerPhase c { s with pc := advancePc c s.pc }
  { s with keyPrev := s.key, waiting := c.waits }

/-- The cycle commits with the given PC class. -/
def finish (c : PcClass) (s : State) : Result := .next (commit c s)

/-! ## Taking a fault (R220 to R223), and leaving it (R226) -/

/-- FAULT_CODE of a cause (R220). -/
def Cause.code : Cause → BitVec 3
  | .stackOverflow => 1
  | .stackUnderflow => 2
  | .unknownOpcode => 3
  | .addressOutOfRange => 4
  | .fetchOutOfRange => 5
  | .keyIndexOutOfRange => 6
  | .loadError => 7

/-- Fault entry: FAULTED, FAULT_CODE, FAULT_PC and FAULT_INSTR are written and nothing else (R221, R223). `s` is the
state at the start of the cycle; `instr` the word fetched, 0x0000 where none was. -/
def takeFault (c : Cause) (instr : Word) (s : State) : State :=
  { s with faulted := true, faultCode := c.code, faultPc := s.pc, faultInstr := instr }

/-- The executed instruction raises a fault: the cycle commits the record alone (R100, R223). Its word is its encoding
(log 7). -/
def trap (c : Cause) (i : Instr) (s : State) : Result := .next (takeFault c (encode i) s)

/-- The `reset` input: every piece of state to its reset value, the only way out of a fault (R226, R250). There is no
return instruction (R229). The model's own fields keep the parameter and the ports (log 11). -/
def State.assertReset (s : State) : State :=
  { State.resetWith s.mem.font with inputs := s.inputs, cycle := s.cycle }

/-- Apply `f` to the next state of an outcome. -/
def mapNext (f : State → State) : Result → Result
  | .next s => .next (f s)
  | .fault r => .fault r
  | .refused r => .refused r

end Sys2Proof.Machine
end

