-- ==== Sys2Proof/Machine/Flags.lean ====
section
/-! DEFINITION. Every flag computation of the ISA: the values 8XY4, 8XY5, 8XY6, 8XY7, 8XYE and DXYN write to VF
(10_state.md R23). -/

namespace Sys2Proof.Machine

/-- A flag as the byte VF gets: 1 or 0 (R23). -/
def flagByte (c : Bool) : Byte := if c then 1 else 0

/-- Carry out of bit 7: `a + b > 255` on the integers (R138). -/
def carryOut (a b : Byte) : Bool := 255 < a.toNat + b.toNat

/-- Not-borrow of `a - b`: `a >= b` (R139, R141). -/
def notBorrow (a b : Byte) : Bool := b.toNat ≤ a.toNat

/-- The bit SHR shifts out: old bit 0 (R140). -/
def shiftedOutRight (a : Byte) : Bool := a.getLsbD 0

/-- The bit SHL shifts out: old bit 7 (R142). -/
def shiftedOutLeft (a : Byte) : Bool := a.getLsbD 7

/-- Write the flag to VF first and the result to V[x] second, so that for x = F the result stays (R130, R137, D10). -/
def State.setFlagThenReg (s : State) (flag : Bool) (x : Reg) (b : Byte) : State := (s.setReg VF (flagByte flag)).setReg x b

end Sys2Proof.Machine
end

