-- ==== Sys2Proof/Machine/Operands.lean ====
section
/-! DEFINITION. Every operand form of the ISA: immediates (30_encoding.md R72), register operands, the index address
(20_memory.md R53), glyph addresses (R162), decimal digits (R163), key numbers (R200), press edges (R205). -/

namespace Sys2Proof.Machine

/-- `zext_16(NNN)` (R72). -/
def zextImm (nnn : Imm12) : Word := nnn.zeroExtend 16

/-- `zext_16` of a byte (R11, R118, R161). -/
def zextByte (b : Byte) : Word := b.zeroExtend 16

/-- The data address I + 0; the further ones count up from it on the integers, so they may pass 0xFFF (R11, R53). -/
def State.indexAddr (s : State) : Nat := s.i.toNat

/-- `(I + zext_16(b)) & 0x0FFF` (R161). -/
def indexPlus (i : Word) (b : Byte) : Word := (i + zextByte b) &&& 0x0FFF

/-- The address of the font glyph of a byte's low nibble, `5 * (b & 0x0F)` (R162). -/
def glyphAddr (b : Byte) : Word := BitVec.ofNat 16 (Config.fontStride * (b &&& 0x0F).toNat)

/-- Hundreds, tens and ones of a byte, in the order they are stored (R163). -/
def bcdDigits (b : Byte) : List Byte :=
  [BitVec.ofNat 8 (b.toNat / 100), BitVec.ofNat 8 (b.toNat / 10 % 10), BitVec.ofNat 8 (b.toNat % 10)]

/-- V0 to V[x], in register order (R164). -/
def State.regsUpTo (s : State) (x : Reg) : List Byte := s.v.toList.take (x.val + 1)

/-- The target of BNNN, `zext_16(NNN) + zext_16(V0)`, not masked (R118). -/
def offsetTarget (nnn : Imm12) (b : Byte) : Word := zextImm nnn + zextByte b

/-- The key number in a register's value, none above 0xF (R200, R201). -/
def keyIndex? (b : Byte) : Option (Fin 16) := if h : b.toNat < 16 then some ⟨b.toNat, h⟩ else none

/-- `KEY[k]` in this cycle's snapshot (R12, R31). -/
def State.pressed (s : State) (k : Fin 16) : Bool := s.key.getLsbD k.val

/-- The key has a press edge: pressed in this snapshot and not in KEY_PREV (R205). -/
def State.pressEdge (s : State) (k : Fin 16) : Bool := s.pressed k && !s.keyPrev.getLsbD k.val

/-- The lowest key with a press edge, if any (R206). -/
def State.lowestEdge (s : State) : Option (Fin 16) := (List.finRange 16).find? s.pressEdge

end Sys2Proof.Machine
end

