-- ==== Sys2Proof/Machine/Alu.lean ====
section
/-! DEFINITION. Register and ALU instructions (42_alu.md): 6XKK, 7XKK, 8XY0 to 8XYE, CXKK. -/

namespace Sys2Proof.Machine

/-- 6XKK (R131). -/
def execLdImm (x : Reg) (kk : Byte) (s : State) : Result := finish .next (s.setReg x kk)

/-- 7XKK: no flag (R132). -/
def execAddImm (x : Reg) (kk : Byte) (s : State) : Result := finish .next (s.setReg x (s.reg x + kk))

/-- 8XY0 (R133). -/
def execLdReg (x y : Reg) (s : State) : Result := finish .next (s.setReg x (s.reg y))

/-- 8XY1: no flag (R134, D11). -/
def execOrReg (x y : Reg) (s : State) : Result := finish .next (s.setReg x (s.reg x ||| s.reg y))

/-- 8XY2: no flag (R135, D11). -/
def execAndReg (x y : Reg) (s : State) : Result := finish .next (s.setReg x (s.reg x &&& s.reg y))

/-- 8XY3: no flag (R136, D11). -/
def execXorReg (x y : Reg) (s : State) : Result := finish .next (s.setReg x (s.reg x ^^^ s.reg y))

/-- 8XY4 (R138). -/
def execAddReg (x y : Reg) (s : State) : Result :=
  finish .next (s.setFlagThenReg (carryOut (s.reg x) (s.reg y)) x (s.reg x + s.reg y))

/-- 8XY5 (R139). -/
def execSubReg (x y : Reg) (s : State) : Result :=
  finish .next (s.setFlagThenReg (notBorrow (s.reg x) (s.reg y)) x (s.reg x - s.reg y))

/-- 8XY6: V[y] is not read (R140). -/
def execShr (x _y : Reg) (s : State) : Result :=
  finish .next (s.setFlagThenReg (shiftedOutRight (s.reg x)) x (s.reg x >>> 1))

/-- 8XY7 (R141). -/
def execSubn (x y : Reg) (s : State) : Result :=
  finish .next (s.setFlagThenReg (notBorrow (s.reg y) (s.reg x)) x (s.reg y - s.reg x))

/-- 8XYE: V[y] is not read (R142). -/
def execShl (x _y : Reg) (s : State) : Result :=
  finish .next (s.setFlagThenReg (shiftedOutLeft (s.reg x)) x (s.reg x <<< 1))

/-- CXKK: the byte is this cycle's `rnd` sample (R143). -/
def execRnd (x : Reg) (kk : Byte) (s : State) : Result := finish .next (s.setReg x (s.rnd &&& kk))

end Sys2Proof.Machine
end

