-- ==== Sys2Proof/Machine/ControlFlow.lean ====
section
/-! DEFINITION. Control flow (41_control_flow.md): 00EE, 1NNN, 2NNN, 3XKK, 4XKK, 5XY0, 9XY0, BNNN. -/

namespace Sys2Proof.Machine

/-- 00EE (R110). -/
def execRet (s : State) : Result :=
  match s.pop? with
  | none => trap .stackUnderflow .ret s
  | some (t, s') => finish (.jump t) s'

/-- 1NNN (R111). -/
def execJp (nnn : Imm12) (s : State) : Result := finish (.jump (zextImm nnn)) s

/-- 2NNN: the pushed value is PC + 2 (R112, C1). -/
def execCall (nnn : Imm12) (s : State) : Result :=
  match s.push? (s.pc + 2) with
  | none => trap .stackOverflow (.call nnn) s
  | some s' => finish (.jump (zextImm nnn)) s'

/-- 3XKK (R113). -/
def execSeImm (x : Reg) (kk : Byte) (s : State) : Result := finish (.skip (s.reg x == kk)) s

/-- 4XKK (R114). -/
def execSneImm (x : Reg) (kk : Byte) (s : State) : Result := finish (.skip (s.reg x != kk)) s

/-- 5XY0 (R115). -/
def execSeReg (x y : Reg) (s : State) : Result := finish (.skip (s.reg x == s.reg y)) s

/-- 9XY0 (R116). -/
def execSneReg (x y : Reg) (s : State) : Result := finish (.skip (s.reg x != s.reg y)) s

/-- BNNN: V0 whatever the X field holds (R118). -/
def execJpV0 (nnn : Imm12) (s : State) : Result := finish (.jump (offsetTarget nnn (s.reg V0))) s

end Sys2Proof.Machine
end

