-- ==== Sys2Proof/Machine/Display.lean ====
section
/-! DEFINITION. Display (44_display.md): 00E0, DXYN with the sprite compositor and its collision detector. -/

namespace Sys2Proof.Machine

/-- The framebuffer as a draw has left it so far, and whether a set pixel was cleared (R181, R183). -/
structure Canvas where
  fb : FrameBuffer
  collide : Bool
deriving DecidableEq, Repr

/-- The column of sprite column `col`: `(x0 + col) mod 64` (R182). -/
def spriteColumn (x0 : Byte) (col : Nat) : Fin 64 := ⟨(x0.toNat + col) % 64, Nat.mod_lt _ (by decide)⟩

/-- The framebuffer row of sprite row `row`: `(y0 + row) mod 32` (R182). -/
def spriteRow (y0 : Byte) (row : Nat) : Fin 32 := ⟨(y0.toNat + row) % 32, Nat.mod_lt _ (by decide)⟩

/-- Bit `col` of a sprite byte, the leftmost pixel being the most significant bit: `b[7 - col]` (R182). -/
def spriteBit (b : Byte) (col : Nat) : Bool := b.getLsbD (7 - col)

/-- One sprite bit onto one pixel: XOR, with the collision noted before it (R181, R183). -/
def drawBit (x0 : Byte) (y : Fin 32) (b : Byte) (c : Canvas) (col : Nat) : Canvas :=
  if spriteBit b col then
    { fb := c.fb.flip y (spriteColumn x0 col), collide := c.collide || c.fb.pixel y (spriteColumn x0 col) }
  else c

/-- One sprite byte, columns 0 to 7 (R181). -/
def drawByte (x0 : Byte) (y : Fin 32) (b : Byte) (c : Canvas) : Canvas :=
  (List.range 8).foldl (drawBit x0 y b) c

/-- The sprite's bytes as rows from number `row` down the framebuffer (R181). -/
def drawRows (x0 y0 : Byte) (row : Nat) (c : Canvas) : List Byte → Canvas
  | [] => c
  | b :: bs => drawRows x0 y0 (row + 1) (drawByte x0 (spriteRow y0 row) b c) bs

/-- The whole sprite on a framebuffer (R181). -/
def drawSprite (x0 y0 : Byte) (bytes : List Byte) (fb : FrameBuffer) : Canvas := drawRows x0 y0 0 ⟨fb, false⟩ bytes

/-- 00E0 (R180). -/
def execCls (s : State) : Result := finish .next { s with fb := clearFrame }

/-- DXYN: every row's address is checked first, the origin is read before VF is written (R181, R184, R185). -/
def execDrw (x y : Reg) (n : Nibble) (s : State) : Result :=
  match s.mem.load? s.indexAddr n.toNat with
  | none => trap .addressOutOfRange (.drw x y n) s
  | some bytes =>
    let c := drawSprite (s.reg x) (s.reg y) bytes s.fb
    finish .next ({ s with fb := c.fb }.setReg VF (flagByte c.collide))

end Sys2Proof.Machine
end

