-- ==== Sys2Proof/Machine/IndexMemory.lean ====
section
/-! DEFINITION. Index register and memory (43_index_memory.md): ANNN, FX1E, FX29, FX33, FX55, FX65. The last two leave I
as it is (D15). -/

namespace Sys2Proof.Machine

/-- Store bytes at I and end the cycle; where an address is above 0xFFF, raise AddressOutOfRange for `i` instead (R53). -/
def storeAtIndex (i : Instr) (bytes : List Byte) (s : State) : Result :=
  match s.mem.store? s.indexAddr bytes with
  | none => trap .addressOutOfRange i s
  | some m => finish .next { s with mem := m }

/-- ANNN (R160). -/
def execLdI (nnn : Imm12) (s : State) : Result := finish .next { s with i := zextImm nnn }

/-- FX1E: no flag (R161). -/
def execAddI (x : Reg) (s : State) : Result := finish .next { s with i := indexPlus s.i (s.reg x) }

/-- FX29: writes I only (R162, C5). -/
def execLdF (x : Reg) (s : State) : Result := finish .next { s with i := glyphAddr (s.reg x) }

/-- FX33 (R163). -/
def execLdB (x : Reg) (s : State) : Result := storeAtIndex (.ldB x) (bcdDigits (s.reg x)) s

/-- FX55 (R164). -/
def execStoreRegs (x : Reg) (s : State) : Result := storeAtIndex (.storeRegs x) (s.regsUpTo x) s

/-- FX65 (R165). -/
def execLoadRegs (x : Reg) (s : State) : Result :=
  match s.mem.load? s.indexAddr (x.val + 1) with
  | none => trap .addressOutOfRange (.loadRegs x) s
  | some bytes => finish .next { s with v := setRegsFrom s.v 0 bytes }

end Sys2Proof.Machine
end

