-- ==== Sys2Proof/Machine/TimerInput.lean ====
section
/-! DEFINITION. Timer and input (45_timer_input.md): EX9E, EXA1, FX07, FX15, FX18, FX0A. -/

namespace Sys2Proof.Machine

/-- Skip if the key that V[x] names is pressed (`want` true) or not (`want` false); KeyIndexOutOfRange for `i` where
V[x] names no key (R200, R201, D12). -/
def skipOnKey (i : Instr) (x : Reg) (want : Bool) (s : State) : Result :=
  match keyIndex? (s.reg x) with
  | none => trap .keyIndexOutOfRange i s
  | some k => finish (.skip (s.pressed k == want)) s

/-- EX9E (R200). -/
def execSkp (x : Reg) (s : State) : Result := skipOnKey (.skp x) x true s

/-- EXA1 (R201). -/
def execSknp (x : Reg) (s : State) : Result := skipOnKey (.sknp x) x false s

/-- FX07: DT as it stood before this cycle's timer phase (R202). -/
def execLdVxDt (x : Reg) (s : State) : Result := finish .next (s.setReg x s.dt)

/-- FX15 (R203). -/
def execLdDtVx (x : Reg) (s : State) : Result := finish .next { s with dt := s.reg x }

/-- FX18 (R204). -/
def execLdStVx (x : Reg) (s : State) : Result := finish .next { s with st := s.reg x }

/-- FX0A: a waiting cycle where no key has a press edge, else V[x] gets the lowest (R206, R207, D13). -/
def execLdVxK (x : Reg) (s : State) : Result :=
  .next (match s.lowestEdge with
    | none => commit .wait s
    | some k => commit .next (s.setReg x (BitVec.ofNat 8 k.val)))

end Sys2Proof.Machine
end

