-- ==== Sys2Proof/Machine/Fetch.lean ====
section
/-! DEFINITION. The phases of a cycle before execute: fetch (40_cycle_engine.md R94) and decode (R95). -/

namespace Sys2Proof.Machine

/-- The word at PC, high byte first; none where PC is above 0xFFE; no alignment is checked (R54, R57, R94). -/
def fetch (s : State) : Option Word :=
  if s.pc.toNat ≤ 0xFFE then some (joinBytes (s.mem.read s.pc.toNat) (s.mem.read (s.pc.toNat + 1))) else none

/-- What fetch and decode give: a stop with the fault record written, or an instruction to execute. -/
inductive Front where
  | stop (s : State)
  | run (i : Instr)
deriving DecidableEq, Repr

/-- Fetch, then decode; the first that fails ends the cycle (R92, R94, R95, R222). -/
def frontEnd (s : State) : Front :=
  match fetch s with
  | none => .stop (takeFault .fetchOutOfRange 0 s)
  | some w =>
    match decodeWord w with
    | .unknown w => .stop (takeFault .unknownOpcode w s)
    | .instr i => .run i

/-- `s` with a word stored at PC as memory holds it; `s` itself where PC leaves no room for a word (R54, R94). -/
def State.placeWord (s : State) (w : Word) : State :=
  match s.mem.store? s.pc.toNat (wordBytes w) with
  | some m => { s with mem := m }
  | none => s

end Sys2Proof.Machine
end

