-- ==== Sys2Proof/Machine/Step.lean ====
section
/-! DEFINITION. One assertion of the `step` input (40_cycle_engine.md R91, R92). -/

namespace Sys2Proof.Machine

/-- One assertion of `step`: nothing at all while FAULTED = 1 (R91); else one cycle: fetch, decode, execute, commit
(R92), with the port sample used up and the cycle counted (`State.closeCycle`). -/
def step (s : State) : Host.Outcome State Fault Refusal :=
  if s.faulted then .next s
  else
    match frontEnd s with
    | .stop t => .next t.closeCycle
    | .run i => mapNext State.closeCycle (exec i s)

/-- `s` with the instruction whose bits are `w` (numbered as spec/opcode_table.json numbers them, the bits above
`nbits` zero) stored at PC, where `step` fetches: for FAULTED = 0 and PC at most 0xFFE the very next step runs it
(log 10). -/
def State.withFetchWord (s : State) (nbits w : Nat) : State := s.placeWord (BitVec.ofNat 16 (w % 2 ^ nbits))

end Sys2Proof.Machine
end

