-- ==== Sys2Proof/Machine/Ports.lean ====
section
/-! DEFINITION. The ports of the CORE (40_cycle_engine.md R90): the program loader (70_reset_and_hazards.md R251,
R252), `reset` and `step` in one instant (R102), and the outputs the host reads between cycles (R234). -/

namespace Sys2Proof.Machine

/-- The `load` port's one transfer of program `p`: to memory from 0x200 up, changing nothing else (R251); a program
longer than 3584 bytes writes no memory and records LoadError (R252). After the first cycle since reset, and a second
time after one reset, it has no move (R254, U23; log 5). -/
def loadProgram (p : List Byte) (s : State) : Result :=
  if s.loadOpen then
    if programWellFormed p then .next { s with mem := s.mem.writeBytes Config.progBase p, loadOpen := false }
    else .next { takeFault .loadError 0 s with loadOpen := false }
  else .refused .loadOutsideWindow

/-- One instant of the `reset` and `step` inputs: reset wins, and with neither nothing changes (R102, R238). -/
def instant (reset step : Bool) (s : State) : Result :=
  if reset then .next s.assertReset
  else if step then Sys2Proof.Machine.step s
  else .next s

/-- The output ports (R90). -/
structure Outputs where
  fb : FrameBuffer
  soundActive : Bool
  waiting : Bool
  faulted : Bool
  faultCode : BitVec 3
  faultPc : Word
  faultInstr : Word
deriving DecidableEq, Repr

/-- What the host reads between cycles; `sound_active` is the level ST /= 0 (R90, R101, R234). -/
def State.outputs (s : State) : Outputs where
  fb := s.fb
  soundActive := s.st != 0
  waiting := s.waiting
  faulted := s.faulted
  faultCode := s.faultCode
  faultPc := s.faultPc
  faultInstr := s.faultInstr

end Sys2Proof.Machine
end

