-- ==== Sys2Proof/Safety.lean ====
section
/-! DEFINITION. The terms the statements use: what a state keeps over a cycle (frames), the invariant of the CORE,
the tables of 10_state.md R22 and 60_exceptions.md R220 as functions of an instruction, and where a sprite's lit bits
land (44_display.md R182). None of these is used by the machine. -/

namespace Sys2Proof.Machine

/-! ## Frames -/

/-- Every general register reads as before. -/
def SameRegs (s t : State) : Prop := ∀ r, t.reg r = s.reg r

/-- Every general register but `x` reads as before. -/
def SameRegsBut (x : Reg) (s t : State) : Prop := ∀ r, r ≠ x → t.reg r = s.reg r

/-- Every general register but `x` and VF reads as before. -/
def SameRegsButFlagAnd (x : Reg) (s t : State) : Prop := ∀ r, r ≠ x → r ≠ VF → t.reg r = s.reg r

/-- Every byte of memory reads as before. -/
def SameMemory (s t : State) : Prop := ∀ a, t.mem.read a = s.mem.read a

/-- Every byte of memory outside the `n` addresses from `a` up reads as before. -/
def SameMemoryOutside (a n : Nat) (s t : State) : Prop := ∀ b, b < a ∨ a + n ≤ b → t.mem.read b = s.mem.read b

/-- Every pixel is as before. -/
def SamePixels (s t : State) : Prop := ∀ y x, t.fb.pixel y x = s.fb.pixel y x

/-- SP and every stack slot are as before. -/
def SameStack (s t : State) : Prop := t.sp = s.sp ∧ ∀ j, t.slot j = s.slot j

/-- The fault record is as before. -/
def SameRecord (s t : State) : Prop :=
  t.faulted = s.faulted ∧ t.faultCode = s.faultCode ∧ t.faultPc = s.faultPc ∧ t.faultInstr = s.faultInstr

/-- The model's own fields are as before: the parameter, the ports, the load window. -/
def SamePorts (s t : State) : Prop :=
  t.mem.font = s.mem.font ∧ t.inputs = s.inputs ∧ t.cycle = s.cycle ∧ t.loadOpen = s.loadOpen

/-- Both timers went down by one, staying at 0 (R232): subtraction on Nat stays at 0. -/
def TimersTicked (s t : State) : Prop := t.dt.toNat = s.dt.toNat - 1 ∧ t.st.toNat = s.st.toNat - 1

/-- What every committed, non-waiting cycle does beside its instruction's writes, the PC and the timers:
KEY_PREV takes the snapshot, WAITING is 0, the fault record stays (R99, R100). -/
def CycleClosed (s t : State) : Prop := t.keyPrev = s.key ∧ t.waiting = false ∧ SameRecord s t ∧ SamePorts s t

/-- What is kept by an instruction of class Next that writes no more than general registers: I, stack, memory,
pixels; the PC advances by 2 and the timers tick (R97, R98). -/
def RegisterCycle (s t : State) : Prop :=
  t.pc = s.pc + 2 ∧ t.i = s.i ∧ SameStack s t ∧ SameMemory s t ∧ SamePixels s t ∧ TimersTicked s t ∧ CycleClosed s t

/-- What is kept by an instruction that writes nothing but the PC (the skips, the jumps). -/
def PcCycle (s t : State) : Prop :=
  SameRegs s t ∧ t.i = s.i ∧ SameStack s t ∧ SameMemory s t ∧ SamePixels s t ∧ TimersTicked s t ∧ CycleClosed s t

/-- Everything but the fault record and the model's own fields is as before. -/
def AllButRecord (s t : State) : Prop :=
  SameRegs s t ∧ t.i = s.i ∧ t.pc = s.pc ∧ SameStack s t ∧ SameMemory s t ∧ SamePixels s t ∧
  t.dt = s.dt ∧ t.st = s.st ∧ t.keyPrev = s.keyPrev ∧ t.waiting = s.waiting

/-- The fault record says: stopped by `c` at the PC of `s`, with the word `instr` (R221). -/
def RecordSays (c : Cause) (instr : Word) (s t : State) : Prop :=
  t.faulted = true ∧ t.faultCode = c.code ∧ t.faultPc = s.pc ∧ t.faultInstr = instr

/-- Executing `i` in `s` raises the fault `c`: the record is written and nothing else changes (R223). -/
def Raises (i : Instr) (s : State) (c : Cause) : Prop :=
  ∃ t, exec i s = .next t ∧ RecordSays c (encode i) s t ∧ AllButRecord s t ∧ SamePorts s t

/-! ## The table of R22 -/

/-- The registers V0 to V[x]. -/
def regsTo (x : Reg) : List Reg := (List.finRange 16).filter (· ≤ x)

/-- The registers an instruction reads (R22). -/
def readsOf : Instr → List Reg
  | .seImm x _ | .sneImm x _ => [x]
  | .seReg x y | .sneReg x y => [x, y]
  | .addImm x _ => [x]
  | .ldReg _ y => [y]
  | .orReg x y | .andReg x y | .xorReg x y => [x, y]
  | .addReg x y | .subReg x y | .subn x y => [x, y]
  | .shr x _ | .shl x _ => [x]
  | .jpV0 _ => [V0]
  | .drw x y _ => [x, y]
  | .skp x | .sknp x => [x]
  | .ldDtVx x | .ldStVx x | .addI x | .ldF x | .ldB x => [x]
  | .storeRegs x => regsTo x
  | .ldImm _ _ | .rnd _ _ | .ldVxDt _ | .ldVxK _ | .loadRegs _ => []
  | .cls | .ret | .jp _ | .call _ | .ldI _ => []

/-- The registers an instruction may write (R22). -/
def writesOf : Instr → List Reg
  | .ldImm x _ | .addImm x _ | .ldReg x _ | .orReg x _ | .andReg x _ | .xorReg x _ | .rnd x _ => [x]
  | .addReg x _ | .subReg x _ | .subn x _ | .shr x _ | .shl x _ => [VF, x]
  | .drw _ _ _ => [VF]
  | .ldVxDt x | .ldVxK x => [x]
  | .loadRegs x => regsTo x
  | .seImm _ _ | .sneImm _ _ | .seReg _ _ | .sneReg _ _ | .jpV0 _ | .skp _ | .sknp _ => []
  | .ldDtVx _ | .ldStVx _ | .addI _ | .ldF _ | .ldB _ | .storeRegs _ => []
  | .cls | .ret | .jp _ | .call _ | .ldI _ => []

/-! ## The table of R220 -/

/-- The fault executing the instruction raises in this state, if any (R220). -/
def instrFault (i : Instr) (s : State) : Option Cause :=
  match i with
  | .call _ => if s.sp.val = 16 then some .stackOverflow else none
  | .ret => if s.sp.val = 0 then some .stackUnderflow else none
  | .drw _ _ n => if 0 < n.toNat ∧ 0xFFF < s.i.toNat + n.toNat - 1 then some .addressOutOfRange else none
  | .ldB _ => if 0xFFF < s.i.toNat + 2 then some .addressOutOfRange else none
  | .storeRegs x | .loadRegs x => if 0xFFF < s.i.toNat + x.val then some .addressOutOfRange else none
  | .skp x | .sknp x => if 0xF < (s.reg x).toNat then some .keyIndexOutOfRange else none
  | .cls | .jp _ | .seImm _ _ | .sneImm _ _ | .seReg _ _ | .ldImm _ _ | .addImm _ _ | .ldReg _ _ => none
  | .orReg _ _ | .andReg _ _ | .xorReg _ _ | .addReg _ _ | .subReg _ _ | .shr _ _ | .subn _ _ | .shl _ _ => none
  | .sneReg _ _ | .ldI _ | .jpV0 _ | .rnd _ _ | .ldVxDt _ | .ldVxK _ | .ldDtVx _ | .ldStVx _ | .addI _ | .ldF _ => none

/-- The fault a cycle raises in this state, if any: fetch first, then decode, then execute (R220, R222). -/
def faultOf (s : State) : Option Cause :=
  if 0xFFE < s.pc.toNat then some .fetchOutOfRange
  else
    match decodeWord (joinBytes (s.mem.read s.pc.toNat) (s.mem.read (s.pc.toNat + 1))) with
    | .unknown _ => some .unknownOpcode
    | .instr i => instrFault i s

/-- FAULT_INSTR of a fault in this state: the word at PC, 0x0000 where none can be fetched (R221). -/
def faultingWord (s : State) : Word :=
  if 0xFFE < s.pc.toNat then 0 else joinBytes (s.mem.read s.pc.toNat) (s.mem.read (s.pc.toNat + 1))

/-! ## Sprites (R182) -/

/-- A lit bit of the `n` sprite bytes at I lands on the pixel in row `py`, column `px`, for the origin `x0`, `y0`: bit
`b[7 - col]` of row `row` lands on column (x0 + col) mod 64 and row (y0 + row) mod 32. -/
def LandsOn (s : State) (x0 y0 : Byte) (n : Nat) (py : Fin 32) (px : Fin 64) : Prop :=
  ∃ row col, row < n ∧ col < 8 ∧ (y0.toNat + row) % 32 = py.val ∧ (x0.toNat + col) % 64 = px.val ∧
    (s.mem.read (s.i.toNat + row)).getLsbD (7 - col) = true

/-! ## The invariant -/

/-- What holds of the CORE at reset and after every step, load and reset. -/
structure CoreInv (s : State) : Prop where
  /-- Memory is in canonical form. -/
  memory : s.mem.wf
  /-- I[15:12] = 0 always (R26). -/
  index : s.i.toNat ≤ 0xFFF
  /-- The largest PC is the largest BNNN target (R25, R118). -/
  pc : s.pc.toNat ≤ 0x10FE
  /-- The largest pushed value is 0x1000 (R112). -/
  slots : ∀ j, (s.slot j).toNat ≤ 0x1000
  /-- The fault record is empty while the CORE runs (R34, R226). -/
  running : s.faulted = false → s.faultCode = 0 ∧ s.faultPc = 0 ∧ s.faultInstr = 0
  /-- A stopped CORE has a fault code, and PC still addresses the faulting instruction (R220, R223). -/
  stopped : s.faulted = true → s.faultCode ≠ 0 ∧ s.faultPc = s.pc
  /-- While `load` has its move no cycle has run: the CORE is neither stopped nor waiting. -/
  window : s.loadOpen = true → s.faulted = false ∧ s.waiting = false
  /-- While WAITING = 1, PC still addresses an FX0A (R33). -/
  waits : s.waiting = true → ∃ w x, fetch s = some w ∧ decodeWord w = .instr (.ldVxK x)

end Sys2Proof.Machine
end

