-- ==== Sys2Proof/Certificates/Slice0/Obligations.lean ====
section
/-! DEFINITION. The statements for the provers, in the order of OBLIGATIONS.json. `Raises`, `RegisterCycle`, `PcCycle`,
`AllButRecord` and the other frames are in Sys2Proof/Safety.lean. -/

open Sys2Proof Sys2Proof.Machine

/-! ## Encoding (30_encoding.md) -/

/-- Words written out from the opcode map, at least one of each of the 16 families (instr[15:12], R14), decode to the
instructions they stand for (R73), and one that no row selects to unknown (R79). -/
def Obligations.SampleWordsDecode : Prop :=
  decodeWord 0x00E0 = .instr .cls ∧ decodeWord 0x00EE = .instr .ret ∧
  decodeWord 0x1234 = .instr (.jp 0x234) ∧ decodeWord 0x2300 = .instr (.call 0x300) ∧
  decodeWord 0x352A = .instr (.seImm 5 0x2A) ∧ decodeWord 0x452B = .instr (.sneImm 5 0x2B) ∧
  decodeWord 0x5120 = .instr (.seReg 1 2) ∧ decodeWord 0x6A02 = .instr (.ldImm 10 0x02) ∧
  decodeWord 0x7320 = .instr (.addImm 3 0x20) ∧
  decodeWord 0x8AB4 = .instr (.addReg 10 11) ∧ decodeWord 0x840E = .instr (.shl 4 0) ∧
  decodeWord 0x9120 = .instr (.sneReg 1 2) ∧ decodeWord 0xA2F0 = .instr (.ldI 0x2F0) ∧
  decodeWord 0xB300 = .instr (.jpV0 0x300) ∧ decodeWord 0xC30F = .instr (.rnd 3 0x0F) ∧
  decodeWord 0xD015 = .instr (.drw 0 1 5) ∧ decodeWord 0xE1A1 = .instr (.sknp 1) ∧
  decodeWord 0xF255 = .instr (.storeRegs 2) ∧ decodeWord 0xF30A = .instr (.ldVxK 3) ∧
  decodeWord 0x0123 = .unknown 0x0123

/-- Decoding the encoding of an instruction gives it back, with every operand at every value it can hold. -/
def Obligations.EncodeThenDecodeGivesInstruction : Prop :=
  ∀ i, decodeWord (encode i) = .instr i ∧ ∀ rest, decodeBytes (encodeBytes i ++ rest) = .instr i rest

/-- A word that decodes to an instruction is that instruction's encoding: no bit of a word is dropped. -/
def Obligations.DecodedWordIsItsEncoding : Prop :=
  ∀ w i, decodeWord w = .instr i → encode i = w

/-- A word decodes to an instruction exactly when a row of the opcode map selects it, and then to that row's (R73); the
map has 34 rows and no two of them select one word. -/
def Obligations.WordSelectsAtMostOneRow : Prop :=
  opcodeRows.length = 34 ∧
  (∀ w, ∀ r ∈ opcodeRows, w &&& r.mask = r.bits → ∃ i, decodeWord w = .instr i ∧ i.row = r) ∧
  (∀ w i, decodeWord w = .instr i → i.row ∈ opcodeRows ∧ w &&& i.row.mask = i.row.bits) ∧
  (∀ w, ∀ r ∈ opcodeRows, ∀ q ∈ opcodeRows, w &&& r.mask = r.bits → w &&& q.mask = q.bits → r = q)

/-- The unknown words, family by family as R75 lists them. -/
def Obligations.UnknownWordsByFamily : Prop :=
  ∀ w, decodeWord w = .unknown w ↔
    (fieldFamily w = 0x0 ∧ w ≠ 0x00E0 ∧ w ≠ 0x00EE) ∨
    (fieldFamily w = 0x5 ∧ fieldN w ≠ 0) ∨
    (fieldFamily w = 0x8 ∧ (8 ≤ (fieldN w).toNat ∧ (fieldN w).toNat ≤ 0xD ∨ fieldN w = 0xF)) ∨
    (fieldFamily w = 0x9 ∧ fieldN w ≠ 0) ∨
    (fieldFamily w = 0xE ∧ fieldKK w ≠ 0x9E ∧ fieldKK w ≠ 0xA1) ∨
    (fieldFamily w = 0xF ∧
      fieldKK w ∉ ([0x07, 0x0A, 0x15, 0x18, 0x1E, 0x29, 0x33, 0x55, 0x65] : List Byte))

/-! ## The cycle (40_cycle_engine.md, 60_exceptions.md) -/

/-- When the two bytes at PC decode to an instruction, a step of a running CORE is exec of it, and what the step adds
is on the model's own fields alone. -/
def Obligations.StepExecutesTheDecodedInstruction : Prop :=
  ∀ s i, s.faulted = false → s.pc.toNat ≤ 0xFFE →
    decodeBytes [s.mem.read s.pc.toNat, s.mem.read (s.pc.toNat + 1)] = .instr i [] →
    ∀ t, exec i s = .next t →
      step s = .next { t with inputs := t.inputs.tail, cycle := t.cycle + 1, loadOpen := false }

/-- Fetch (R94): the byte at PC is the high byte and the byte at PC + 1 the low byte, whether PC is even or odd; with PC
above 0xFFE the cycle raises FetchOutOfRange with FAULT_PC = PC and FAULT_INSTR = 0, and nothing else changes. -/
def Obligations.FetchIsBigEndianAndBounded : Prop :=
  (∀ s, s.pc.toNat ≤ 0xFFE → ∃ w, fetch s = some w ∧
    w.toNat = (s.mem.read s.pc.toNat).toNat * 256 + (s.mem.read (s.pc.toNat + 1)).toNat) ∧
  (∀ s, s.faulted = false → 0xFFE < s.pc.toNat →
    ∃ t, step s = .next t ∧ RecordSays .fetchOutOfRange 0x0000 s t ∧ AllButRecord s t)

/-- A fetched word that matches no instruction raises UnknownOpcode with FAULT_PC = PC and FAULT_INSTR = the word;
nothing else changes and PC does not advance (R95). -/
def Obligations.UnknownWordFaults : Prop :=
  ∀ s w, s.faulted = false → s.pc.toNat ≤ 0xFFE →
    w.toNat = (s.mem.read s.pc.toNat).toNat * 256 + (s.mem.read (s.pc.toNat + 1)).toNat →
    (∀ r ∈ opcodeRows, w &&& r.mask ≠ r.bits) →
    ∃ t, step s = .next t ∧ RecordSays .unknownOpcode w s t ∧ AllButRecord s t

/-- A step while FAULTED = 1 does nothing (R91), however many are taken. -/
def Obligations.FaultedCoreStandsStill : Prop :=
  ∀ s, s.faulted = true → ∀ k, Sys2Proof.core.run k s = .next s

/-- A running CORE's step always answers a next state, and it stops there exactly when the table of R220 says, with the
code of that table: fetch before decode before execute (R222), one condition per instruction. -/
def Obligations.CycleFaultsExactlyByTheTable : Prop :=
  ∀ s, s.faulted = false → ∃ t, step s = .next t ∧
    (match faultOf s with
      | some c => t.faulted = true ∧ t.faultCode = c.code
      | none => t.faulted = false ∧ t.faultCode = s.faultCode ∧ t.faultPc = s.faultPc ∧ t.faultInstr = s.faultInstr)

/-- A cycle that stops the CORE commits the fault record alone, with the code of its cause, the PC of the cycle and the
word fetched (R221, R223): every other piece of state is as at the start of the cycle, the outputs show the record, and no
later step does anything. -/
def Obligations.FaultCommitsOnlyTheRecord : Prop :=
  ∀ s t, s.faulted = false → step s = .next t → t.faulted = true →
    (∃ c, faultOf s = some c ∧ t.faultCode = c.code) ∧ t.faultPc = s.pc ∧ t.faultInstr = faultingWord s ∧
    AllButRecord s t ∧
    t.outputs.faulted = true ∧ t.outputs.faultCode = t.faultCode ∧ t.outputs.faultPc = t.faultPc ∧
    t.outputs.faultInstr = t.faultInstr ∧
    ∀ k, Sys2Proof.core.run k t = .next t

/-- The timer phase, over every instruction: a committed cycle takes each timer down by one, staying at 0, from what the
execute step left; a waiting cycle leaves both (R98, R232, R233). -/
def Obligations.TimersTickOncePerCommittedCycle : Prop :=
  ∀ i s t, s.faulted = false → exec i s = .next t → t.faulted = false →
    if t.waiting = true then t.dt = s.dt ∧ t.st = s.st
    else
      (∀ x, i = .ldDtVx x → t.dt.toNat = (s.reg x).toNat - 1) ∧
      ((∀ x, i ≠ .ldDtVx x) → t.dt.toNat = s.dt.toNat - 1) ∧
      (∀ x, i = .ldStVx x → t.st.toNat = (s.reg x).toNat - 1) ∧
      ((∀ x, i ≠ .ldStVx x) → t.st.toNat = s.st.toNat - 1)

/-- A committed cycle leaves the key snapshot in KEY_PREV, and WAITING is 1 exactly after an FX0A that found no press
edge (R32, R33, R99). -/
def Obligations.CommittedCycleKeepsTheKeySnapshot : Prop :=
  ∀ i s t, s.faulted = false → exec i s = .next t → t.faulted = false →
    t.keyPrev = s.key ∧
    (t.waiting = true ↔ (∃ x, i = .ldVxK x) ∧
      ∀ k : Fin 16, ¬ (s.key.getLsbD k.val = true ∧ s.keyPrev.getLsbD k.val = false))

/-- A register R22 does not list for an instruction is neither written by it nor read: changing that register changes
nothing else in the outcome. -/
def Obligations.UnlistedRegisterIsNeitherReadNorWritten : Prop :=
  (∀ i s t r, exec i s = .next t → r ∉ writesOf i → t.reg r = s.reg r) ∧
  (∀ i s t t' r b, exec i s = .next t → exec i (s.setReg r b) = .next t' → r ∉ readsOf i →
    t'.setReg r 0 = t.setReg r 0)

/-- Only ANNN, FX1E and FX29 write I, and what they leave is in 0x000-0xFFF (R26). -/
def Obligations.IndexIsWrittenByThreeInstructions : Prop :=
  ∀ i s t, exec i s = .next t →
    (t.i = s.i ∨ ((∃ nnn, i = .ldI nnn) ∨ (∃ x, i = .addI x) ∨ (∃ x, i = .ldF x)) ∧ t.i.toNat ≤ 0xFFF)

/-- Only 2NNN writes the stack, adding one entry, and only 00EE takes one off, writing no slot (R28). -/
def Obligations.StackIsTouchedOnlyByCallAndRet : Prop :=
  ∀ i s t, exec i s = .next t →
    (SameStack s t ∨
      (∃ nnn, i = .call nnn) ∧ t.sp.val = s.sp.val + 1 ∧ (∀ j : Fin 16, j.val ≠ s.sp.val → t.slot j = s.slot j) ∨
      i = .ret ∧ t.sp.val + 1 = s.sp.val ∧ ∀ j, t.slot j = s.slot j)

/-- Only FX33 and FX55 write memory; FX29 in particular does not (R50). -/
def Obligations.MemoryIsWrittenOnlyByStores : Prop :=
  ∀ i s t, exec i s = .next t → (∀ x, i ≠ .ldB x) → (∀ x, i ≠ .storeRegs x) → SameMemory s t

/-- Only 00E0 and DXYN write the framebuffer (R30). -/
def Obligations.FramebufferIsWrittenOnlyByClsAndDrw : Prop :=
  ∀ i s t, exec i s = .next t → i ≠ .cls → (∀ x y n, i ≠ .drw x y n) → SamePixels s t

/-! ## Control flow (41_control_flow.md) -/

/-- 00EE (R110): with an entry on the stack it jumps to it and SP goes down by one; at SP = 0 it raises StackUnderflow. -/
def Obligations.RetPopsIntoPc : Prop :=
  (∀ w : Word, w = 0x00EE → decodeWord w = .instr .ret) ∧
  (∀ s (j : Fin 16), s.sp.val = j.val + 1 → ∃ t, exec .ret s = .next t ∧
    t.pc = s.slot j ∧ t.sp.val = j.val ∧ (∀ k, t.slot k = s.slot k) ∧
    SameRegs s t ∧ t.i = s.i ∧ SameMemory s t ∧ SamePixels s t ∧ TimersTicked s t ∧ CycleClosed s t) ∧
  (∀ s, s.sp.val = 0 → Raises .ret s .stackUnderflow)

/-- 1NNN (R111): PC becomes NNN, and nothing else but the cycle's own changes. -/
def Obligations.JpSetsPc : Prop :=
  (∀ w : Word, w &&& 0xF000 = 0x1000 → decodeWord w = .instr (.jp (fieldNNN w))) ∧
  (∀ nnn s, ∃ t, exec (.jp nnn) s = .next t ∧ t.pc.toNat = nnn.toNat ∧ PcCycle s t)

/-- 2NNN (R112): with a free slot it pushes PC + 2 there, SP goes up by one and PC becomes NNN; at SP = 16 it raises
StackOverflow. -/
def Obligations.CallPushesReturnAddress : Prop :=
  (∀ w : Word, w &&& 0xF000 = 0x2000 → decodeWord w = .instr (.call (fieldNNN w))) ∧
  (∀ nnn s (j : Fin 16), s.sp.val = j.val → ∃ t, exec (.call nnn) s = .next t ∧
    t.slot j = s.pc + 2 ∧ (∀ k, k ≠ j → t.slot k = s.slot k) ∧ t.sp.val = j.val + 1 ∧ t.pc.toNat = nnn.toNat ∧
    SameRegs s t ∧ t.i = s.i ∧ SameMemory s t ∧ SamePixels s t ∧ TimersTicked s t ∧ CycleClosed s t) ∧
  (∀ nnn s, s.sp.val = 16 → Raises (.call nnn) s .stackOverflow)

/-- A call followed at its target by a return comes back to the instruction after the call, with SP and every slot below
it as they were (R110, R112, C1). -/
def Obligations.CallThenRetReturnsAfterTheCall : Prop :=
  ∀ nnn s t u, s.sp.val < 16 → exec (.call nnn) s = .next t → exec .ret t = .next u →
    u.pc = s.pc + 2 ∧ u.sp = s.sp ∧ ∀ k : Fin 16, k.val < s.sp.val → u.slot k = s.slot k

/-- 3XKK and 4XKK (R113, R114): PC goes on by 4 if V[X] equals (differs from) KK, else by 2. -/
def Obligations.SkipOnImmediate : Prop :=
  (∀ w : Word, w &&& 0xF000 = 0x3000 → decodeWord w = .instr (.seImm (fieldX w) (fieldKK w))) ∧
  (∀ w : Word, w &&& 0xF000 = 0x4000 → decodeWord w = .instr (.sneImm (fieldX w) (fieldKK w))) ∧
  (∀ x kk s, ∃ t, exec (.seImm x kk) s = .next t ∧
    t.pc = s.pc + (if s.reg x = kk then 4 else 2) ∧ PcCycle s t) ∧
  (∀ x kk s, ∃ t, exec (.sneImm x kk) s = .next t ∧
    t.pc = s.pc + (if s.reg x = kk then 2 else 4) ∧ PcCycle s t)

/-- 5XY0 and 9XY0 (R115, R116): PC goes on by 4 if V[X] equals (differs from) V[Y], else by 2. -/
def Obligations.SkipOnRegister : Prop :=
  (∀ w : Word, w &&& 0xF00F = 0x5000 → decodeWord w = .instr (.seReg (fieldX w) (fieldY w))) ∧
  (∀ w : Word, w &&& 0xF00F = 0x9000 → decodeWord w = .instr (.sneReg (fieldX w) (fieldY w))) ∧
  (∀ x y s, ∃ t, exec (.seReg x y) s = .next t ∧
    t.pc = s.pc + (if s.reg x = s.reg y then 4 else 2) ∧ PcCycle s t) ∧
  (∀ x y s, ∃ t, exec (.sneReg x y) s = .next t ∧
    t.pc = s.pc + (if s.reg x = s.reg y then 2 else 4) ∧ PcCycle s t)

/-- BNNN (R118): PC becomes NNN + V0 on the integers, 0x000 to 0x10FE, not masked. -/
def Obligations.JpV0AddsV0 : Prop :=
  (∀ w : Word, w &&& 0xF000 = 0xB000 → decodeWord w = .instr (.jpV0 (fieldNNN w))) ∧
  (∀ nnn s, ∃ t, exec (.jpV0 nnn) s = .next t ∧ t.pc.toNat = nnn.toNat + (s.reg V0).toNat ∧ PcCycle s t)

/-! ## ALU (42_alu.md) -/

/-- 6XKK (R131), 8XY0 (R133) and CXKK (R143): V[X] becomes KK, V[Y], or this cycle's random byte masked with KK. -/
def Obligations.LoadsWriteTheirRegister : Prop :=
  (∀ w : Word, w &&& 0xF000 = 0x6000 → decodeWord w = .instr (.ldImm (fieldX w) (fieldKK w))) ∧
  (∀ w : Word, w &&& 0xF00F = 0x8000 → decodeWord w = .instr (.ldReg (fieldX w) (fieldY w))) ∧
  (∀ w : Word, w &&& 0xF000 = 0xC000 → decodeWord w = .instr (.rnd (fieldX w) (fieldKK w))) ∧
  (∀ x kk s, ∃ t, exec (.ldImm x kk) s = .next t ∧ t.reg x = kk ∧ SameRegsBut x s t ∧ RegisterCycle s t) ∧
  (∀ x y s, ∃ t, exec (.ldReg x y) s = .next t ∧ t.reg x = s.reg y ∧ SameRegsBut x s t ∧ RegisterCycle s t) ∧
  (∀ x kk s, ∃ t, exec (.rnd x kk) s = .next t ∧ t.reg x = s.rnd &&& kk ∧ SameRegsBut x s t ∧ RegisterCycle s t)

/-- 7XKK (R132): V[X] becomes V[X] + KK mod 256; no other register is written, VF included unless X = F. -/
def Obligations.AddImmediateWrapsWithoutFlag : Prop :=
  (∀ w : Word, w &&& 0xF000 = 0x7000 → decodeWord w = .instr (.addImm (fieldX w) (fieldKK w))) ∧
  (∀ x kk s, ∃ t, exec (.addImm x kk) s = .next t ∧
    (t.reg x).toNat = ((s.reg x).toNat + kk.toNat) % 256 ∧ SameRegsBut x s t ∧ RegisterCycle s t)

/-- 8XY1, 8XY2, 8XY3 (R134, R135, R136): bitwise OR, AND, XOR of V[X] and V[Y], bit by bit; VF is not written unless
X = F. -/
def Obligations.BitwiseOperationsLeaveTheFlag : Prop :=
  (∀ w : Word, w &&& 0xF00F = 0x8001 → decodeWord w = .instr (.orReg (fieldX w) (fieldY w))) ∧
  (∀ w : Word, w &&& 0xF00F = 0x8002 → decodeWord w = .instr (.andReg (fieldX w) (fieldY w))) ∧
  (∀ w : Word, w &&& 0xF00F = 0x8003 → decodeWord w = .instr (.xorReg (fieldX w) (fieldY w))) ∧
  (∀ x y s, ∃ t, exec (.orReg x y) s = .next t ∧
    (∀ k, (t.reg x).getLsbD k = ((s.reg x).getLsbD k || (s.reg y).getLsbD k)) ∧ SameRegsBut x s t ∧ RegisterCycle s t) ∧
  (∀ x y s, ∃ t, exec (.andReg x y) s = .next t ∧
    (∀ k, (t.reg x).getLsbD k = ((s.reg x).getLsbD k && (s.reg y).getLsbD k)) ∧ SameRegsBut x s t ∧ RegisterCycle s t) ∧
  (∀ x y s, ∃ t, exec (.xorReg x y) s = .next t ∧
    (∀ k, (t.reg x).getLsbD k = ((s.reg x).getLsbD k ^^ (s.reg y).getLsbD k)) ∧ SameRegsBut x s t ∧ RegisterCycle s t)

/-- 8XY4 (R138): V[X] becomes V[X] + V[Y] mod 256 and, for X other than F, VF the carry. -/
def Obligations.AddSetsCarry : Prop :=
  (∀ w : Word, w &&& 0xF00F = 0x8004 → decodeWord w = .instr (.addReg (fieldX w) (fieldY w))) ∧
  (∀ x y s, ∃ t, exec (.addReg x y) s = .next t ∧
    (t.reg x).toNat = ((s.reg x).toNat + (s.reg y).toNat) % 256 ∧
    (x ≠ VF → t.reg VF = if 255 < (s.reg x).toNat + (s.reg y).toNat then 1 else 0) ∧
    SameRegsButFlagAnd x s t ∧ RegisterCycle s t)

/-- 8XY5 (R139): V[X] becomes V[X] - V[Y] mod 256 and, for X other than F, VF is 1 if V[X] >= V[Y], else 0. -/
def Obligations.SubSetsNotBorrow : Prop :=
  (∀ w : Word, w &&& 0xF00F = 0x8005 → decodeWord w = .instr (.subReg (fieldX w) (fieldY w))) ∧
  (∀ x y s, ∃ t, exec (.subReg x y) s = .next t ∧
    ((t.reg x).toNat : Int) = ((s.reg x).toNat - (s.reg y).toNat : Int) % 256 ∧
    (x ≠ VF → t.reg VF = if (s.reg y).toNat ≤ (s.reg x).toNat then 1 else 0) ∧
    SameRegsButFlagAnd x s t ∧ RegisterCycle s t)

/-- 8XY7 (R141): V[X] becomes V[Y] - V[X] mod 256 and, for X other than F, VF is 1 if V[Y] >= V[X], else 0. -/
def Obligations.SubnSetsNotBorrow : Prop :=
  (∀ w : Word, w &&& 0xF00F = 0x8007 → decodeWord w = .instr (.subn (fieldX w) (fieldY w))) ∧
  (∀ x y s, ∃ t, exec (.subn x y) s = .next t ∧
    ((t.reg x).toNat : Int) = ((s.reg y).toNat - (s.reg x).toNat : Int) % 256 ∧
    (x ≠ VF → t.reg VF = if (s.reg x).toNat ≤ (s.reg y).toNat then 1 else 0) ∧
    SameRegsButFlagAnd x s t ∧ RegisterCycle s t)

/-- 8XY6 (R140): V[X] is halved and, for X other than F, VF is its old bit 0; V[Y] plays no part. -/
def Obligations.ShrShiftsOutBitZero : Prop :=
  (∀ w : Word, w &&& 0xF00F = 0x8006 → decodeWord w = .instr (.shr (fieldX w) (fieldY w))) ∧
  (∀ x y s, ∃ t, exec (.shr x y) s = .next t ∧
    (t.reg x).toNat = (s.reg x).toNat / 2 ∧
    (x ≠ VF → (t.reg VF).toNat = (s.reg x).toNat % 2) ∧
    SameRegsButFlagAnd x s t ∧ RegisterCycle s t)

/-- 8XYE (R142): V[X] is doubled mod 256 and, for X other than F, VF is its old bit 7; V[Y] plays no part. -/
def Obligations.ShlShiftsOutBitSeven : Prop :=
  (∀ w : Word, w &&& 0xF00F = 0x800E → decodeWord w = .instr (.shl (fieldX w) (fieldY w))) ∧
  (∀ x y s, ∃ t, exec (.shl x y) s = .next t ∧
    (t.reg x).toNat = (s.reg x).toNat * 2 % 256 ∧
    (x ≠ VF → (t.reg VF).toNat = (s.reg x).toNat / 128) ∧
    SameRegsButFlagAnd x s t ∧ RegisterCycle s t)

/-- The aliasing table of 42_alu.md section 3, which the spec itself derives from R130 and R138 to R142. With X = F the result wins over the flag; with Y = F the operand is the old VF; with
X = Y other than F a subtraction leaves V[X] = 0 and VF = 1, and an addition VF = 1 exactly if V[X] >= 128. -/
def Obligations.AliasedFlagOperations : Prop :=
  (∀ y s t, exec (.addReg VF y) s = .next t → (t.reg VF).toNat = ((s.reg VF).toNat + (s.reg y).toNat) % 256) ∧
  (∀ y s t, exec (.subReg VF y) s = .next t →
    ((t.reg VF).toNat : Int) = ((s.reg VF).toNat - (s.reg y).toNat : Int) % 256) ∧
  (∀ y s t, exec (.shr VF y) s = .next t → (t.reg VF).toNat = (s.reg VF).toNat / 2) ∧
  (∀ y s t, exec (.subn VF y) s = .next t →
    ((t.reg VF).toNat : Int) = ((s.reg y).toNat - (s.reg VF).toNat : Int) % 256) ∧
  (∀ y s t, exec (.shl VF y) s = .next t → (t.reg VF).toNat = (s.reg VF).toNat * 2 % 256) ∧
  (∀ x s t, x ≠ VF → exec (.addReg x VF) s = .next t →
    (t.reg x).toNat = ((s.reg x).toNat + (s.reg VF).toNat) % 256 ∧
    t.reg VF = if 255 < (s.reg x).toNat + (s.reg VF).toNat then 1 else 0) ∧
  (∀ x s t, x ≠ VF → exec (.subReg x VF) s = .next t →
    ((t.reg x).toNat : Int) = ((s.reg x).toNat - (s.reg VF).toNat : Int) % 256 ∧
    t.reg VF = if (s.reg VF).toNat ≤ (s.reg x).toNat then 1 else 0) ∧
  (∀ x s t, x ≠ VF → exec (.subn x VF) s = .next t →
    ((t.reg x).toNat : Int) = ((s.reg VF).toNat - (s.reg x).toNat : Int) % 256 ∧
    t.reg VF = if (s.reg x).toNat ≤ (s.reg VF).toNat then 1 else 0) ∧
  (∀ x s t, x ≠ VF → exec (.addReg x x) s = .next t →
    (t.reg x).toNat = 2 * (s.reg x).toNat % 256 ∧ t.reg VF = if 128 ≤ (s.reg x).toNat then 1 else 0) ∧
  (∀ x s t, x ≠ VF → exec (.subReg x x) s = .next t ∨ exec (.subn x x) s = .next t →
    t.reg x = 0 ∧ t.reg VF = 1) ∧
  (∀ s t, exec (.subReg VF VF) s = .next t ∨ exec (.subn VF VF) s = .next t → t.reg VF = 0) ∧
  (∀ x y s t, x ≠ VF → exec (.shr x y) s = .next t →
    (t.reg x).toNat = (s.reg x).toNat / 2 ∧ (t.reg VF).toNat = (s.reg x).toNat % 2) ∧
  (∀ x y s t, x ≠ VF → exec (.shl x y) s = .next t →
    (t.reg x).toNat = (s.reg x).toNat * 2 % 256 ∧ (t.reg VF).toNat = (s.reg x).toNat / 128)

/-! ## Index register and memory (43_index_memory.md, 20_memory.md) -/

/-- ANNN (R160), FX1E (R161) and FX29 (R162): I becomes NNN, I + V[X] modulo 4096, or 5 times the low nibble of V[X]; no
register, VF included, is written. -/
def Obligations.IndexInstructionsWriteIndex : Prop :=
  (∀ w : Word, w &&& 0xF000 = 0xA000 → decodeWord w = .instr (.ldI (fieldNNN w))) ∧
  (∀ w : Word, w &&& 0xF0FF = 0xF01E → decodeWord w = .instr (.addI (fieldX w))) ∧
  (∀ w : Word, w &&& 0xF0FF = 0xF029 → decodeWord w = .instr (.ldF (fieldX w))) ∧
  (∀ nnn s, ∃ t, exec (.ldI nnn) s = .next t ∧ t.i.toNat = nnn.toNat ∧
    t.pc = s.pc + 2 ∧ SameRegs s t ∧ SameStack s t ∧ SameMemory s t ∧ SamePixels s t ∧ TimersTicked s t ∧
    CycleClosed s t) ∧
  (∀ x s, ∃ t, exec (.addI x) s = .next t ∧ t.i.toNat = (s.i.toNat + (s.reg x).toNat) % 4096 ∧
    t.pc = s.pc + 2 ∧ SameRegs s t ∧ SameStack s t ∧ SameMemory s t ∧ SamePixels s t ∧ TimersTicked s t ∧
    CycleClosed s t) ∧
  (∀ x s, ∃ t, exec (.ldF x) s = .next t ∧ t.i.toNat = 5 * ((s.reg x).toNat % 16) ∧
    t.pc = s.pc + 2 ∧ SameRegs s t ∧ SameStack s t ∧ SameMemory s t ∧ SamePixels s t ∧ TimersTicked s t ∧
    CycleClosed s t)

/-- FX33 (R163): with I + 2 at most 0xFFF the hundreds, tens and ones of V[X] go to I, I + 1 and I + 2 and no other byte
changes; else it raises AddressOutOfRange. -/
def Obligations.BcdStoresThreeDigits : Prop :=
  (∀ w : Word, w &&& 0xF0FF = 0xF033 → decodeWord w = .instr (.ldB (fieldX w))) ∧
  (∀ x s, s.i.toNat + 2 ≤ 0xFFF → ∃ t, exec (.ldB x) s = .next t ∧
    (t.mem.read s.i.toNat).toNat = (s.reg x).toNat / 100 ∧
    (t.mem.read (s.i.toNat + 1)).toNat = (s.reg x).toNat / 10 % 10 ∧
    (t.mem.read (s.i.toNat + 2)).toNat = (s.reg x).toNat % 10 ∧
    SameMemoryOutside s.i.toNat 3 s t ∧
    t.pc = s.pc + 2 ∧ SameRegs s t ∧ t.i = s.i ∧ SameStack s t ∧ SamePixels s t ∧ TimersTicked s t ∧
    CycleClosed s t) ∧
  (∀ x s, 0xFFF < s.i.toNat + 2 → Raises (.ldB x) s .addressOutOfRange)

/-- FX55 (R164): with I + X at most 0xFFF, V0 to V[X] go to I to I + X, no other byte changes and I stays; else it raises
AddressOutOfRange. -/
def Obligations.StoreRegsStoresFromV0 : Prop :=
  (∀ w : Word, w &&& 0xF0FF = 0xF055 → decodeWord w = .instr (.storeRegs (fieldX w))) ∧
  (∀ x s, s.i.toNat + x.val ≤ 0xFFF → ∃ t, exec (.storeRegs x) s = .next t ∧
    (∀ r : Reg, r ≤ x → t.mem.read (s.i.toNat + r.val) = s.reg r) ∧
    SameMemoryOutside s.i.toNat (x.val + 1) s t ∧
    t.pc = s.pc + 2 ∧ SameRegs s t ∧ t.i = s.i ∧ SameStack s t ∧ SamePixels s t ∧ TimersTicked s t ∧
    CycleClosed s t) ∧
  (∀ x s, 0xFFF < s.i.toNat + x.val → Raises (.storeRegs x) s .addressOutOfRange)

/-- FX65 (R165): with I + X at most 0xFFF, the bytes at I to I + X go to V0 to V[X], the registers above stay and I stays;
else it raises AddressOutOfRange. -/
def Obligations.LoadRegsLoadsFromV0 : Prop :=
  (∀ w : Word, w &&& 0xF0FF = 0xF065 → decodeWord w = .instr (.loadRegs (fieldX w))) ∧
  (∀ x s, s.i.toNat + x.val ≤ 0xFFF → ∃ t, exec (.loadRegs x) s = .next t ∧
    (∀ r : Reg, r ≤ x → t.reg r = s.mem.read (s.i.toNat + r.val)) ∧
    (∀ r : Reg, x < r → t.reg r = s.reg r) ∧ RegisterCycle s t) ∧
  (∀ x s, 0xFFF < s.i.toNat + x.val → Raises (.loadRegs x) s .addressOutOfRange)

/-- FX55, then any change of registers, then FX65 with the same X and I gives V0 to V[X] back (§8 of the source, as
95_test_vectors.md E6 gives it). -/
def Obligations.StoreThenLoadRestoresRegisters : Prop :=
  ∀ x s t u w, s.i.toNat + x.val ≤ 0xFFF → exec (.storeRegs x) s = .next t →
    u.mem = t.mem → u.i = t.i → exec (.loadRegs x) u = .next w → ∀ r : Reg, r ≤ x → w.reg r = s.reg r

/-- The next read of a written address returns the byte and no other byte changes (R52). -/
def Obligations.ReadAfterWriteReturnsTheByte : Prop :=
  ∀ (m : Memory) a v, a ≤ 0xFFF → (m.write a v).read a = v ∧ ∀ b, b ≠ a → (m.write a v).read b = m.read b

/-- A store is seen by the next fetch (20_memory.md section 7, which derives it from R62 and R94 itself): a byte FX55 puts at the next cycle's PC is that cycle's high byte. -/
def Obligations.StoreIsSeenByTheNextFetch : Prop :=
  ∀ x s t (r q : Reg), s.i.toNat + x.val ≤ 0xFFF → exec (.storeRegs x) s = .next t → r ≤ x → q ≤ x →
    q.val = r.val + 1 → t.pc.toNat = s.i.toNat + r.val →
    ∃ w, fetch t = some w ∧ w.toNat = (s.reg r).toNat * 256 + (s.reg q).toNat

/-! ## Display (44_display.md) -/

/-- 00E0 (R180): every pixel is 0 and nothing else is written, VF included. -/
def Obligations.ClsClearsEveryPixel : Prop :=
  (∀ w : Word, w = 0x00E0 → decodeWord w = .instr .cls) ∧
  (∀ s, ∃ t, exec .cls s = .next t ∧ (∀ y x, t.fb.pixel y x = false) ∧
    t.pc = s.pc + 2 ∧ SameRegs s t ∧ t.i = s.i ∧ SameStack s t ∧ SameMemory s t ∧ TimersTicked s t ∧ CycleClosed s t)

/-- DXYN (R181 to R185): with every sprite row inside memory, or no row at all, each pixel a lit bit lands on is flipped,
every other pixel stays, and VF is 1 exactly if one of them was set; the origin is the V[X] and V[Y] of the cycle's start,
VF included; with a row above 0xFFF it raises AddressOutOfRange. -/
def Obligations.DrwXorsTheSprite : Prop :=
  (∀ w : Word, w &&& 0xF000 = 0xD000 → decodeWord w = .instr (.drw (fieldX w) (fieldY w) (fieldN w))) ∧
  (∀ x y n s, n.toNat = 0 ∨ s.i.toNat + n.toNat - 1 ≤ 0xFFF → ∃ t, exec (.drw x y n) s = .next t ∧
    (∀ py px, LandsOn s (s.reg x) (s.reg y) n.toNat py px → t.fb.pixel py px = !s.fb.pixel py px) ∧
    (∀ py px, ¬ LandsOn s (s.reg x) (s.reg y) n.toNat py px → t.fb.pixel py px = s.fb.pixel py px) ∧
    ((∃ py px, LandsOn s (s.reg x) (s.reg y) n.toNat py px ∧ s.fb.pixel py px = true) → t.reg VF = 1) ∧
    ((∀ py px, LandsOn s (s.reg x) (s.reg y) n.toNat py px → s.fb.pixel py px = false) → t.reg VF = 0) ∧
    SameRegsBut VF s t ∧ t.pc = s.pc + 2 ∧ t.i = s.i ∧ SameStack s t ∧ SameMemory s t ∧ TimersTicked s t ∧
    CycleClosed s t) ∧
  (∀ x y n s, 0 < n.toNat → 0xFFF < s.i.toNat + n.toNat - 1 → Raises (.drw x y n) s .addressOutOfRange)

/-- Drawing the same sprite again at the same place, with FB, memory and I as the first draw left them, gives the
framebuffer back, and the second draw's VF is 1 exactly if some lit bit landed on a pixel that was 0 before the first
(44_display.md, which derives it from R181 to R183 itself; C6). The origin is the same whichever registers hold it, so VF may hold it, rewritten between the draws. -/
def Obligations.DrawingTwiceRestoresTheFramebuffer : Prop :=
  ∀ x y x' y' n s t r u, n.toNat = 0 ∨ s.i.toNat + n.toNat - 1 ≤ 0xFFF →
    exec (.drw x y n) s = .next t →
    r.fb = t.fb → r.mem = t.mem → r.i = t.i → r.reg x' = s.reg x → r.reg y' = s.reg y →
    exec (.drw x' y' n) r = .next u →
    SamePixels s u ∧
    (u.reg VF = 1 ↔ ∃ py px, LandsOn s (s.reg x) (s.reg y) n.toNat py px ∧ s.fb.pixel py px = false) ∧
    (u.reg VF = 0 ∨ u.reg VF = 1)

/-! ## Timers and input (45_timer_input.md) -/

/-- EX9E and EXA1 (R200, R201): with V[X] at most 0xF, PC goes on by 4 if that key is pressed (not pressed) in this
cycle's snapshot, else by 2; with V[X] above 0xF they raise KeyIndexOutOfRange. -/
def Obligations.SkipOnKey : Prop :=
  (∀ w : Word, w &&& 0xF0FF = 0xE09E → decodeWord w = .instr (.skp (fieldX w))) ∧
  (∀ w : Word, w &&& 0xF0FF = 0xE0A1 → decodeWord w = .instr (.sknp (fieldX w))) ∧
  (∀ x s, (s.reg x).toNat ≤ 0xF → ∃ t, exec (.skp x) s = .next t ∧
    t.pc = s.pc + (if s.key.getLsbD (s.reg x).toNat = true then 4 else 2) ∧ PcCycle s t) ∧
  (∀ x s, (s.reg x).toNat ≤ 0xF → ∃ t, exec (.sknp x) s = .next t ∧
    t.pc = s.pc + (if s.key.getLsbD (s.reg x).toNat = true then 2 else 4) ∧ PcCycle s t) ∧
  (∀ x s, 0xF < (s.reg x).toNat →
    Raises (.skp x) s .keyIndexOutOfRange ∧ Raises (.sknp x) s .keyIndexOutOfRange)

/-- FX07: V[X] gets DT as it stood at the start of the cycle, which 45_timer_input.md derives from the order of R92
itself; the same cycle's timer phase then ticks DT (R98). -/
def Obligations.ReadDelayTimerBeforeTheTick : Prop :=
  (∀ w : Word, w &&& 0xF0FF = 0xF007 → decodeWord w = .instr (.ldVxDt (fieldX w))) ∧
  (∀ x s, ∃ t, exec (.ldVxDt x) s = .next t ∧ t.reg x = s.dt ∧ SameRegsBut x s t ∧ RegisterCycle s t)

/-- FX15 and FX18 (R203, R204): the timer is set to V[X] and ticked in the same cycle, the other timer ticks; with
V[X] = 1 in FX18, `sound_active` is 0 after the cycle. -/
def Obligations.SetTimerThenTick : Prop :=
  (∀ w : Word, w &&& 0xF0FF = 0xF015 → decodeWord w = .instr (.ldDtVx (fieldX w))) ∧
  (∀ w : Word, w &&& 0xF0FF = 0xF018 → decodeWord w = .instr (.ldStVx (fieldX w))) ∧
  (∀ x s, ∃ t, exec (.ldDtVx x) s = .next t ∧
    t.dt.toNat = (s.reg x).toNat - 1 ∧ t.st.toNat = s.st.toNat - 1 ∧
    t.pc = s.pc + 2 ∧ SameRegs s t ∧ t.i = s.i ∧ SameStack s t ∧ SameMemory s t ∧ SamePixels s t ∧ CycleClosed s t) ∧
  (∀ x s, ∃ t, exec (.ldStVx x) s = .next t ∧
    t.st.toNat = (s.reg x).toNat - 1 ∧ t.dt.toNat = s.dt.toNat - 1 ∧
    (t.outputs.soundActive = true ↔ 1 < (s.reg x).toNat) ∧
    t.pc = s.pc + 2 ∧ SameRegs s t ∧ t.i = s.i ∧ SameStack s t ∧ SameMemory s t ∧ SamePixels s t ∧ CycleClosed s t)

/-- FX0A (R205, R206): if some key has a press edge, V[X] gets the lowest such key and the cycle is one of class Next;
if none has, it is a waiting cycle: PC and the timers stay, WAITING becomes 1. -/
def Obligations.KeyWaitTakesTheLowestPressEdge : Prop :=
  (∀ w : Word, w &&& 0xF0FF = 0xF00A → decodeWord w = .instr (.ldVxK (fieldX w))) ∧
  (∀ x s (k : Fin 16), s.key.getLsbD k.val = true → s.keyPrev.getLsbD k.val = false →
    (∀ j : Fin 16, j < k → s.key.getLsbD j.val = true → s.keyPrev.getLsbD j.val = true) →
    ∃ t, exec (.ldVxK x) s = .next t ∧ (t.reg x).toNat = k.val ∧ SameRegsBut x s t ∧ RegisterCycle s t) ∧
  (∀ x s, (∀ k : Fin 16, s.key.getLsbD k.val = true → s.keyPrev.getLsbD k.val = true) →
    ∃ t, exec (.ldVxK x) s = .next t ∧ t.pc = s.pc ∧ SameRegs s t ∧ t.i = s.i ∧ SameStack s t ∧ SameMemory s t ∧
      SamePixels s t ∧ t.dt = s.dt ∧ t.st = s.st ∧ t.keyPrev = s.key ∧ t.waiting = true ∧ SameRecord s t ∧ SamePorts s t)

/-- While the CORE waits and this cycle's snapshot has no press edge, a step changes KEY_PREV alone and the CORE waits on;
a key held since the last snapshot does not end the wait, a press edge does (R206, R238; 45_timer_input.md derives the list from R205 and R206 itself). -/
def Obligations.WaitingCoreChangesOnlyTheKeySnapshot : Prop :=
  ∀ s, CoreInv s → s.faulted = false → s.waiting = true →
    ∃ t, step s = .next t ∧ t.keyPrev = s.key ∧ t.faulted = false ∧
      ((∀ k : Fin 16, s.key.getLsbD k.val = true → s.keyPrev.getLsbD k.val = true) →
        t.waiting = true ∧ SameRegs s t ∧ t.i = s.i ∧ t.pc = s.pc ∧ SameStack s t ∧ SameMemory s t ∧
        SamePixels s t ∧ t.dt = s.dt ∧ t.st = s.st) ∧
      ((∃ k : Fin 16, s.key.getLsbD k.val = true ∧ s.keyPrev.getLsbD k.val = false) →
        t.waiting = false ∧ t.pc = s.pc + 2 ∧ TimersTicked s t)

/-- A delay timer that nothing rewrites and no wait or fault stalls counts down by one per cycle, staying at 0 (R98, R232; 60_exceptions.md section 7 derives the count itself):
after k such cycles it is k lower. -/
def Obligations.DelayTimerCountsCycles : Prop :=
  ∀ (k : Nat) (s t : State), Sys2Proof.core.run k s = .next t →
    (∀ j (u : State), j < k → Sys2Proof.core.run j s = .next u → ∀ x, frontEnd u ≠ .run (.ldDtVx x)) →
    (∀ j (u : State), j ≤ k → Sys2Proof.core.run j s = .next u → u.faulted = false) →
    (∀ j (u : State), 0 < j → j ≤ k → Sys2Proof.core.run j s = .next u → u.waiting = false) →
    t.dt.toNat = s.dt.toNat - k

/-! ## Reset, load, invariant (10_state.md R36, 70_reset_and_hazards.md) -/

/-- The state after reset, field by field as R36 lists it; memory holds the font below 0x050 and 0 elsewhere. -/
def Obligations.ResetLeavesTheListedValues : Prop :=
  (∀ r, State.reset.reg r = 0) ∧ State.reset.i = 0 ∧ State.reset.pc = 0x200 ∧ State.reset.sp = 0 ∧
  (∀ j, State.reset.slot j = 0) ∧ State.reset.dt = 0 ∧ State.reset.st = 0 ∧
  (∀ a (h : a < 80), State.reset.mem.read a = Config.fontBitmaps[a]) ∧
  (∀ a, 80 ≤ a → State.reset.mem.read a = 0) ∧
  (∀ y x, State.reset.fb.pixel y x = false) ∧ State.reset.keyPrev = 0 ∧ State.reset.waiting = false ∧
  State.reset.faulted = false ∧ State.reset.faultCode = 0 ∧ State.reset.faultPc = 0 ∧ State.reset.faultInstr = 0

/-- The `reset` input, in any state and whether or not `step` is asserted with it, gives every piece of state its reset
value; a fault and a key wait end (R226, R250). -/
def Obligations.ResetInputRestoresEveryState : Prop :=
  ∀ s stepIn, ∃ t, instant true stepIn s = .next t ∧
    (∀ r, t.reg r = 0) ∧ t.i = 0 ∧ t.pc = 0x200 ∧ t.sp = 0 ∧ (∀ j, t.slot j = 0) ∧ t.dt = 0 ∧ t.st = 0 ∧
    (∀ a (h : a < 80), t.mem.read a = s.mem.font[a]) ∧ (∀ a, 80 ≤ a → t.mem.read a = 0) ∧
    (∀ y x, t.fb.pixel y x = false) ∧ t.keyPrev = 0 ∧ t.waiting = false ∧
    t.faulted = false ∧ t.faultCode = 0 ∧ t.faultPc = 0 ∧ t.faultInstr = 0

/-- `load` of at most 3584 bytes in its window puts byte j at 0x200 + j and changes nothing else (R251); a second `load`
and a `load` after a cycle have no move (R251, R254; the refusal that says so is the model's, log 5). -/
def Obligations.LoadCopiesTheProgram : Prop :=
  (∀ p s, s.loadOpen = true → p.length ≤ 3584 → ∃ t, loadProgram p s = .next t ∧
    (∀ j (h : j < p.length), t.mem.read (0x200 + j) = p[j]) ∧
    SameMemoryOutside 0x200 p.length s t ∧ SameRegs s t ∧ t.i = s.i ∧ t.pc = s.pc ∧ SameStack s t ∧ SamePixels s t ∧
    t.dt = s.dt ∧ t.st = s.st ∧ t.keyPrev = s.keyPrev ∧ t.waiting = s.waiting ∧ SameRecord s t) ∧
  (∀ p q s t, loadProgram p s = .next t → loadProgram q t = .refused .loadOutsideWindow) ∧
  (∀ q s t, s.faulted = false → step s = .next t → loadProgram q t = .refused .loadOutsideWindow)

/-- `load` of more than 3584 bytes writes no memory and records LoadError, code 7, with FAULT_PC = PC and FAULT_INSTR = 0;
no step then changes anything (R252). -/
def Obligations.OversizedLoadStopsTheCore : Prop :=
  ∀ p s, s.loadOpen = true → 3584 < p.length → ∃ t, loadProgram p s = .next t ∧
    t.faulted = true ∧ t.faultCode = 7 ∧ t.faultPc = s.pc ∧ t.faultInstr = 0x0000 ∧ AllButRecord s t ∧
    ∀ k, Sys2Proof.core.run k t = .next t

/-- The invariant holds at reset. -/
def Obligations.ResetMeetsTheInvariant : Prop := CoreInv State.reset

/-- Every step keeps the invariant: memory in canonical form, I below 0x1000, PC at most 0x10FE, stack slots at most
0x1000, the fault record empty while running and precise when stopped, WAITING only at an FX0A. -/
def Obligations.StepKeepsTheInvariant : Prop :=
  ∀ s t, CoreInv s → step s = .next t → CoreInv t

/-- The host's two transfers, `load` and `reset`, keep the invariant too; `reset` even restores it. -/
def Obligations.LoadAndResetKeepTheInvariant : Prop :=
  (∀ p s t, CoreInv s → loadProgram p s = .next t → CoreInv t) ∧
  (∀ s : State, CoreInv s.assertReset)

/-! ## The input ports (40_cycle_engine.md R99) -/

/-- One sample a cycle (R99): while a queued sample is at hand, KEY and RND are its two values, and a step of a running
CORE uses up that sample and no other, whether its cycle commits or faults. The queue that holds the samples to come is
the model's own (log 2, DESIGN CHOICE). -/
def Obligations.CycleReadsTheOldestQueuedSample : Prop :=
  ∀ (s : State) p l, s.inputs = p :: l →
    s.key = p.key ∧ s.rnd = p.rnd ∧ (s.faulted = false → ∃ t, step s = .next t ∧ t.inputs = l)
end

