-- ==== Sys2Proof/Laws/Decode.lean ====
section
/-! SUPPORT. The fields of a word built from fields, and a word as built from its fields (30_encoding.md R70, R71). -/

namespace Sys2Proof

variable (f n : Nibble) (x y : Reg) (kk : Byte) (nnn : Imm12) (w : Word)

@[simp] theorem toFin_regField : (regField x).toFin = x := rfl
@[simp] theorem regField_toFin (b : Nibble) : regField b.toFin = b := rfl

/-! ## Words built from fields -/

@[simp] theorem fieldFamily_wordXYN : fieldFamily (wordXYN f x y n) = f := by
  ext i hi; simp only [fieldFamily, wordXYN, BitVec.getElem_extractLsb', BitVec.getLsbD_append]
  interval_cases i <;> simp

@[simp] theorem fieldX_wordXYN : fieldX (wordXYN f x y n) = x := by
  rw [← toFin_regField x]; unfold fieldX; congr 1
  ext i hi; simp only [wordXYN, BitVec.getElem_extractLsb', BitVec.getLsbD_append]
  interval_cases i <;> simp

@[simp] theorem fieldY_wordXYN : fieldY (wordXYN f x y n) = y := by
  rw [← toFin_regField y]; unfold fieldY; congr 1
  ext i hi; simp only [wordXYN, BitVec.getElem_extractLsb', BitVec.getLsbD_append]
  interval_cases i <;> simp

@[simp] theorem fieldN_wordXYN : fieldN (wordXYN f x y n) = n := by
  ext i hi; simp only [fieldN, wordXYN, BitVec.getElem_extractLsb', BitVec.getLsbD_append]
  interval_cases i <;> simp

@[simp] theorem fieldFamily_wordXKK : fieldFamily (wordXKK f x kk) = f := by
  ext i hi; simp only [fieldFamily, wordXKK, BitVec.getElem_extractLsb', BitVec.getLsbD_append]
  interval_cases i <;> simp

@[simp] theorem fieldX_wordXKK : fieldX (wordXKK f x kk) = x := by
  rw [← toFin_regField x]; unfold fieldX; congr 1
  ext i hi; simp only [wordXKK, BitVec.getElem_extractLsb', BitVec.getLsbD_append]
  interval_cases i <;> simp

@[simp] theorem fieldKK_wordXKK : fieldKK (wordXKK f x kk) = kk := by
  ext i hi; simp only [fieldKK, wordXKK, BitVec.getElem_extractLsb', BitVec.getLsbD_append]
  interval_cases i <;> simp

@[simp] theorem fieldFamily_wordNNN : fieldFamily (wordNNN f nnn) = f := by
  ext i hi; simp only [fieldFamily, wordNNN, BitVec.getElem_extractLsb', BitVec.getLsbD_append]
  interval_cases i <;> simp

@[simp] theorem fieldNNN_wordNNN : fieldNNN (wordNNN f nnn) = nnn := by
  ext i hi; simp only [fieldNNN, wordNNN, BitVec.getElem_extractLsb', BitVec.getLsbD_append]
  interval_cases i <;> simp

/-! ## A word from its fields -/

theorem wordXYN_of_fields : wordXYN (fieldFamily w) (fieldX w) (fieldY w) (fieldN w) = w := by
  apply BitVec.eq_of_getLsbD_eq; intro i hi
  simp only [wordXYN, fieldX, fieldY, regField_toFin, fieldFamily, fieldN, BitVec.getLsbD_append, BitVec.getLsbD_extractLsb']
  interval_cases i <;> simp

theorem wordXKK_of_fields : wordXKK (fieldFamily w) (fieldX w) (fieldKK w) = w := by
  apply BitVec.eq_of_getLsbD_eq; intro i hi
  simp only [wordXKK, fieldX, regField_toFin, fieldFamily, fieldKK, BitVec.getLsbD_append, BitVec.getLsbD_extractLsb']
  interval_cases i <;> simp

theorem wordNNN_of_fields : wordNNN (fieldFamily w) (fieldNNN w) = w := by
  apply BitVec.eq_of_getLsbD_eq; intro i hi
  simp only [wordNNN, fieldFamily, fieldNNN, BitVec.getLsbD_append, BitVec.getLsbD_extractLsb']
  interval_cases i <;> simp

/-! ## Bytes (R54) -/

@[simp] theorem joinBytes_hiByte_loByte : joinBytes (hiByte w) (loByte w) = w := by
  apply BitVec.eq_of_getLsbD_eq; intro i hi
  simp only [joinBytes, hiByte, loByte, BitVec.getLsbD_append, BitVec.getLsbD_extractLsb']
  interval_cases i <;> simp

@[simp] theorem hiByte_joinBytes (a b : Byte) : hiByte (joinBytes a b) = a := by
  ext i hi; simp only [hiByte, joinBytes, BitVec.getElem_extractLsb', BitVec.getLsbD_append]
  interval_cases i <;> simp

@[simp] theorem loByte_joinBytes (a b : Byte) : loByte (joinBytes a b) = b := by
  ext i hi; simp only [loByte, joinBytes, BitVec.getElem_extractLsb', BitVec.getLsbD_append]
  interval_cases i <;> simp

/-- The first word is high byte first: its value is high byte times 256 plus low byte (R54). -/
theorem joinBytes_toNat (a b : Byte) : (joinBytes a b).toNat = a.toNat * 256 + b.toNat := by
  simp only [joinBytes, BitVec.toNat_append]
  rw [← Nat.shiftLeft_add_eq_or_of_lt b.isLt, Nat.shiftLeft_eq]

end Sys2Proof
end

