-- ==== Sys2Proof/Laws/State.lean ====
section
/-! SUPPORT. One lemma per field of State per named update, and what the accessors read after each update. -/

namespace Sys2Proof.Machine

variable (s : State) (r q : Reg) (b : Byte) (c : Cause) (w : Word) (k : PcClass) (f : Bool)

/-! ## setReg -/

@[simp] theorem State.setReg_i : (s.setReg r b).i = s.i := rfl
@[simp] theorem State.setReg_pc : (s.setReg r b).pc = s.pc := rfl
@[simp] theorem State.setReg_sp : (s.setReg r b).sp = s.sp := rfl
@[simp] theorem State.setReg_stack : (s.setReg r b).stack = s.stack := rfl
@[simp] theorem State.setReg_dt : (s.setReg r b).dt = s.dt := rfl
@[simp] theorem State.setReg_st : (s.setReg r b).st = s.st := rfl
@[simp] theorem State.setReg_mem : (s.setReg r b).mem = s.mem := rfl
@[simp] theorem State.setReg_fb : (s.setReg r b).fb = s.fb := rfl
@[simp] theorem State.setReg_keyPrev : (s.setReg r b).keyPrev = s.keyPrev := rfl
@[simp] theorem State.setReg_waiting : (s.setReg r b).waiting = s.waiting := rfl
@[simp] theorem State.setReg_faulted : (s.setReg r b).faulted = s.faulted := rfl
@[simp] theorem State.setReg_faultCode : (s.setReg r b).faultCode = s.faultCode := rfl
@[simp] theorem State.setReg_faultPc : (s.setReg r b).faultPc = s.faultPc := rfl
@[simp] theorem State.setReg_faultInstr : (s.setReg r b).faultInstr = s.faultInstr := rfl
@[simp] theorem State.setReg_inputs : (s.setReg r b).inputs = s.inputs := rfl
@[simp] theorem State.setReg_cycle : (s.setReg r b).cycle = s.cycle := rfl
@[simp] theorem State.setReg_loadOpen : (s.setReg r b).loadOpen = s.loadOpen := rfl

/-! ## setFlagThenReg -/

@[simp] theorem State.setFlagThenReg_i : (s.setFlagThenReg f r b).i = s.i := rfl
@[simp] theorem State.setFlagThenReg_pc : (s.setFlagThenReg f r b).pc = s.pc := rfl
@[simp] theorem State.setFlagThenReg_sp : (s.setFlagThenReg f r b).sp = s.sp := rfl
@[simp] theorem State.setFlagThenReg_stack : (s.setFlagThenReg f r b).stack = s.stack := rfl
@[simp] theorem State.setFlagThenReg_dt : (s.setFlagThenReg f r b).dt = s.dt := rfl
@[simp] theorem State.setFlagThenReg_st : (s.setFlagThenReg f r b).st = s.st := rfl
@[simp] theorem State.setFlagThenReg_mem : (s.setFlagThenReg f r b).mem = s.mem := rfl
@[simp] theorem State.setFlagThenReg_fb : (s.setFlagThenReg f r b).fb = s.fb := rfl
@[simp] theorem State.setFlagThenReg_keyPrev : (s.setFlagThenReg f r b).keyPrev = s.keyPrev := rfl
@[simp] theorem State.setFlagThenReg_waiting : (s.setFlagThenReg f r b).waiting = s.waiting := rfl
@[simp] theorem State.setFlagThenReg_faulted : (s.setFlagThenReg f r b).faulted = s.faulted := rfl
@[simp] theorem State.setFlagThenReg_faultCode : (s.setFlagThenReg f r b).faultCode = s.faultCode := rfl
@[simp] theorem State.setFlagThenReg_faultPc : (s.setFlagThenReg f r b).faultPc = s.faultPc := rfl
@[simp] theorem State.setFlagThenReg_faultInstr : (s.setFlagThenReg f r b).faultInstr = s.faultInstr := rfl
@[simp] theorem State.setFlagThenReg_inputs : (s.setFlagThenReg f r b).inputs = s.inputs := rfl
@[simp] theorem State.setFlagThenReg_cycle : (s.setFlagThenReg f r b).cycle = s.cycle := rfl
@[simp] theorem State.setFlagThenReg_loadOpen : (s.setFlagThenReg f r b).loadOpen = s.loadOpen := rfl

/-! ## takeFault -/

@[simp] theorem takeFault_v : (takeFault c w s).v = s.v := rfl
@[simp] theorem takeFault_i : (takeFault c w s).i = s.i := rfl
@[simp] theorem takeFault_pc : (takeFault c w s).pc = s.pc := rfl
@[simp] theorem takeFault_sp : (takeFault c w s).sp = s.sp := rfl
@[simp] theorem takeFault_stack : (takeFault c w s).stack = s.stack := rfl
@[simp] theorem takeFault_dt : (takeFault c w s).dt = s.dt := rfl
@[simp] theorem takeFault_st : (takeFault c w s).st = s.st := rfl
@[simp] theorem takeFault_mem : (takeFault c w s).mem = s.mem := rfl
@[simp] theorem takeFault_fb : (takeFault c w s).fb = s.fb := rfl
@[simp] theorem takeFault_keyPrev : (takeFault c w s).keyPrev = s.keyPrev := rfl
@[simp] theorem takeFault_waiting : (takeFault c w s).waiting = s.waiting := rfl
@[simp] theorem takeFault_faulted : (takeFault c w s).faulted = true := rfl
@[simp] theorem takeFault_faultCode : (takeFault c w s).faultCode = c.code := rfl
@[simp] theorem takeFault_faultPc : (takeFault c w s).faultPc = s.pc := rfl
@[simp] theorem takeFault_faultInstr : (takeFault c w s).faultInstr = w := rfl
@[simp] theorem takeFault_inputs : (takeFault c w s).inputs = s.inputs := rfl
@[simp] theorem takeFault_cycle : (takeFault c w s).cycle = s.cycle := rfl
@[simp] theorem takeFault_loadOpen : (takeFault c w s).loadOpen = s.loadOpen := rfl

/-! ## closeCycle -/

@[simp] theorem State.closeCycle_v : s.closeCycle.v = s.v := rfl
@[simp] theorem State.closeCycle_i : s.closeCycle.i = s.i := rfl
@[simp] theorem State.closeCycle_pc : s.closeCycle.pc = s.pc := rfl
@[simp] theorem State.closeCycle_sp : s.closeCycle.sp = s.sp := rfl
@[simp] theorem State.closeCycle_stack : s.closeCycle.stack = s.stack := rfl
@[simp] theorem State.closeCycle_dt : s.closeCycle.dt = s.dt := rfl
@[simp] theorem State.closeCycle_st : s.closeCycle.st = s.st := rfl
@[simp] theorem State.closeCycle_mem : s.closeCycle.mem = s.mem := rfl
@[simp] theorem State.closeCycle_fb : s.closeCycle.fb = s.fb := rfl
@[simp] theorem State.closeCycle_keyPrev : s.closeCycle.keyPrev = s.keyPrev := rfl
@[simp] theorem State.closeCycle_waiting : s.closeCycle.waiting = s.waiting := rfl
@[simp] theorem State.closeCycle_faulted : s.closeCycle.faulted = s.faulted := rfl
@[simp] theorem State.closeCycle_faultCode : s.closeCycle.faultCode = s.faultCode := rfl
@[simp] theorem State.closeCycle_faultPc : s.closeCycle.faultPc = s.faultPc := rfl
@[simp] theorem State.closeCycle_faultInstr : s.closeCycle.faultInstr = s.faultInstr := rfl
@[simp] theorem State.closeCycle_inputs : s.closeCycle.inputs = s.inputs.tail := rfl
@[simp] theorem State.closeCycle_cycle : s.closeCycle.cycle = s.cycle + 1 := rfl
@[simp] theorem State.closeCycle_loadOpen : s.closeCycle.loadOpen = false := rfl

/-! ## commit -/

@[simp] theorem commit_v : (commit k s).v = s.v := by cases k <;> rfl
@[simp] theorem commit_i : (commit k s).i = s.i := by cases k <;> rfl
@[simp] theorem commit_pc : (commit k s).pc = advancePc k s.pc := by cases k <;> rfl
@[simp] theorem commit_sp : (commit k s).sp = s.sp := by cases k <;> rfl
@[simp] theorem commit_stack : (commit k s).stack = s.stack := by cases k <;> rfl
@[simp] theorem commit_dt : (commit k s).dt = if k.waits then s.dt else tickTimer s.dt := by cases k <;> rfl
@[simp] theorem commit_st : (commit k s).st = if k.waits then s.st else tickTimer s.st := by cases k <;> rfl
@[simp] theorem commit_mem : (commit k s).mem = s.mem := by cases k <;> rfl
@[simp] theorem commit_fb : (commit k s).fb = s.fb := by cases k <;> rfl
@[simp] theorem commit_keyPrev : (commit k s).keyPrev = s.key := by cases k <;> rfl
@[simp] theorem commit_waiting : (commit k s).waiting = k.waits := by cases k <;> rfl
@[simp] theorem commit_faulted : (commit k s).faulted = s.faulted := by cases k <;> rfl
@[simp] theorem commit_faultCode : (commit k s).faultCode = s.faultCode := by cases k <;> rfl
@[simp] theorem commit_faultPc : (commit k s).faultPc = s.faultPc := by cases k <;> rfl
@[simp] theorem commit_faultInstr : (commit k s).faultInstr = s.faultInstr := by cases k <;> rfl
@[simp] theorem commit_inputs : (commit k s).inputs = s.inputs := by cases k <;> rfl
@[simp] theorem commit_cycle : (commit k s).cycle = s.cycle := by cases k <;> rfl
@[simp] theorem commit_loadOpen : (commit k s).loadOpen = s.loadOpen := by cases k <;> rfl

/-! ## Accessors after an update -/

@[simp] theorem State.reg_setReg_self : (s.setReg r b).reg r = b := by simp [State.reg, State.setReg]

theorem State.reg_setReg : (s.setReg r b).reg q = if q = r then b else s.reg q := by
  simp only [State.reg, State.setReg, Vector.getElem_set, Fin.ext_iff, eq_comm]

theorem State.reg_setReg_ne (h : q ≠ r) : (s.setReg r b).reg q = s.reg q := by simp [State.reg_setReg, h]

theorem State.reg_congr {s t : State} (h : t.v = s.v) (r : Reg) : t.reg r = s.reg r := by simp only [State.reg, h]

@[simp] theorem State.reg_setFlagThenReg_self : (s.setFlagThenReg f r b).reg r = b := by
  simp [State.setFlagThenReg]

theorem State.reg_setFlagThenReg :
    (s.setFlagThenReg f r b).reg q = if q = r then b else if q = VF then flagByte f else s.reg q := by
  simp only [State.setFlagThenReg, State.reg_setReg]

@[simp] theorem State.reg_takeFault : (takeFault c w s).reg r = s.reg r := rfl
@[simp] theorem State.reg_closeCycle : s.closeCycle.reg r = s.reg r := rfl
@[simp] theorem State.reg_commit : (commit k s).reg r = s.reg r := State.reg_congr (commit_v s k) r

variable (j : Fin 16)

theorem State.slot_congr {s t : State} (h : t.stack = s.stack) (j : Fin 16) : t.slot j = s.slot j := by
  simp only [State.slot, h]

@[simp] theorem State.slot_setReg : (s.setReg r b).slot j = s.slot j := rfl
@[simp] theorem State.slot_setFlagThenReg : (s.setFlagThenReg f r b).slot j = s.slot j := rfl
@[simp] theorem State.slot_takeFault : (takeFault c w s).slot j = s.slot j := rfl
@[simp] theorem State.slot_closeCycle : s.closeCycle.slot j = s.slot j := rfl
@[simp] theorem State.slot_commit : (commit k s).slot j = s.slot j := State.slot_congr (commit_stack s k) j

/-! ## The port sample -/

theorem State.sample_congr {s t : State} (h : t.inputs = s.inputs) (h' : t.cycle = s.cycle) : t.sample = s.sample := by
  simp only [State.sample, h, h']

@[simp] theorem State.key_setReg : (s.setReg r b).key = s.key := rfl
@[simp] theorem State.rnd_setReg : (s.setReg r b).rnd = s.rnd := rfl
@[simp] theorem State.key_setFlagThenReg : (s.setFlagThenReg f r b).key = s.key := rfl
@[simp] theorem State.key_commit : (commit k s).key = s.key := by
  simp only [State.key, State.sample_congr (commit_inputs s k) (commit_cycle s k)]

/-! ## Flags and timers -/

@[simp] theorem flagByte_true : flagByte true = 1 := rfl
@[simp] theorem flagByte_false : flagByte false = 0 := rfl

theorem tickTimer_toNat (t : Byte) : (tickTimer t).toNat = t.toNat - 1 := by
  unfold tickTimer
  split
  · next h => subst h; rfl
  · next h =>
    have : t.toNat ≠ 0 := fun h' => h (BitVec.eq_of_toNat_eq h')
    have := t.isLt
    rw [BitVec.toNat_sub, show (1 : Byte).toNat = 1 from rfl]
    omega

@[simp] theorem mapNext_next (g : State → State) (t : State) : mapNext g (.next t) = .next (g t) := rfl

end Sys2Proof.Machine
end

