-- ==== Sys2Proof/Laws/Memory.lean ====
section
/-! SUPPORT. What one read, one write and the multi-byte operations of memory do, and that every operation keeps the
canonical form. -/

namespace Sys2Proof.Machine

/-! ## Cells -/

theorem lookupCell_eraseCell (l : List Host.Cell) (a b : Nat) :
    lookupCell (eraseCell a l) b = if b = a then none else lookupCell l b := by
  induction l with
  | nil => simp [eraseCell, lookupCell]
  | cons c l ih =>
    obtain ⟨k, v⟩ := c
    simp only [eraseCell] at ih
    by_cases hk : k = a
    · subst hk
      by_cases hb : b = k
      · simpa [eraseCell, lookupCell, hb] using ih
      · simpa [eraseCell, lookupCell, hb, Ne.symm hb] using ih
    · by_cases hkb : k = b
      · subst hkb; simp [eraseCell, lookupCell, hk]
      · simpa [eraseCell, lookupCell, hk, hkb] using ih

theorem lookupCell_insertCell (l : List Host.Cell) (a b : Nat) (v : Byte) :
    lookupCell (insertCell a v l) b = if b = a then some v else lookupCell l b := by
  induction l with
  | nil => simp only [insertCell, lookupCell, eq_comm]
  | cons c l ih =>
    obtain ⟨k, w⟩ := c
    unfold insertCell
    split
    · simp only [lookupCell, eq_comm]
    · split
      · next h => subst h; by_cases hb : b = k <;> simp [lookupCell, hb, Ne.symm]
      · next h =>
        by_cases hk : k = b
        · subst hk; simp [lookupCell, h]
        · simp [lookupCell, hk, ih]

theorem mem_eraseCell {l : List Host.Cell} {a : Nat} {c : Host.Cell} (h : c ∈ eraseCell a l) : c ∈ l :=
  List.mem_of_mem_filter h

theorem mem_insertCell {l : List Host.Cell} {a : Nat} {v : Byte} {c : Host.Cell} (h : c ∈ insertCell a v l) :
    c = (a, v) ∨ c ∈ l := by
  induction l with
  | nil => simpa [insertCell] using h
  | cons d l ih =>
    obtain ⟨k, w⟩ := d
    unfold insertCell at h
    split at h
    · simpa using h
    · split at h
      · simp only [List.mem_cons] at h ⊢; tauto
      · simp only [List.mem_cons] at h ⊢
        rcases h with h | h
        · exact .inr (.inl h)
        · rcases ih h with h | h
          · exact .inl h
          · exact .inr (.inr h)

theorem pairwise_insertCell {l : List Host.Cell} (a : Nat) (v : Byte)
    (h : l.Pairwise (fun c d => c.1 < d.1)) : (insertCell a v l).Pairwise (fun c d => c.1 < d.1) := by
  induction l with
  | nil => simp [insertCell]
  | cons d l ih =>
    obtain ⟨k, w⟩ := d
    obtain ⟨hk, hl⟩ := List.pairwise_cons.1 h
    unfold insertCell
    split
    · next hak =>
      refine List.pairwise_cons.2 ⟨fun c hc => ?_, h⟩
      rcases List.mem_cons.1 hc with rfl | hc
      · exact hak
      · exact Nat.lt_trans hak (hk c hc)
    · split
      · next hka => subst hka; exact List.pairwise_cons.2 ⟨hk, hl⟩
      · next hak hka =>
        refine List.pairwise_cons.2 ⟨fun c hc => ?_, ih hl⟩
        rcases mem_insertCell hc with rfl | hc
        · simp only; omega
        · exact hk c hc

/-! ## One byte (R51, R52) -/

@[simp] theorem Memory.write_font (m : Memory) (a : Nat) (v : Byte) : (m.write a v).font = m.font := rfl

theorem Memory.resetByte_congr {m n : Memory} (h : m.font = n.font) (a : Nat) : m.resetByte a = n.resetByte a := by
  simp only [Memory.resetByte, h]

@[simp] theorem Memory.write_resetByte (m : Memory) (a b : Nat) (v : Byte) :
    (m.write a v).resetByte b = m.resetByte b := rfl

/-- The next read of a written address returns the byte, and no other byte changes (R52). -/
theorem Memory.read_write_law (m : Memory) (a b : Nat) (v : Byte) :
    (m.write a v).read b = if b = a then v else m.read b := by
  simp only [Memory.read, Memory.write_resetByte]
  simp only [Memory.write]
  split
  · next h =>
    rw [lookupCell_eraseCell]
    split
    · next hb => subst hb; simp [h]
    · rfl
  · rw [lookupCell_insertCell]; split <;> simp

theorem Memory.wf_write {m : Memory} (h : m.wf) {a : Nat} (ha : a < Config.memSize) (v : Byte) : (m.write a v).wf := by
  obtain ⟨hp, hc⟩ := h
  unfold Memory.wf
  simp only [Memory.write_resetByte]
  simp only [Memory.write]
  split
  · exact ⟨hp.filter _, fun c hm => hc c (mem_eraseCell hm)⟩
  · next hv =>
    refine ⟨pairwise_insertCell a v hp, fun c hm => ?_⟩
    rcases mem_insertCell hm with rfl | hm
    · exact ⟨ha, hv⟩
    · exact hc c hm

/-! ## Several bytes (R55) -/

@[simp] theorem Memory.writeBytes_font (m : Memory) (a : Nat) (bs : List Byte) : (m.writeBytes a bs).font = m.font := by
  induction bs generalizing m a with
  | nil => rfl
  | cons b bs ih => simp [Memory.writeBytes, ih]

theorem Memory.read_writeBytes (m : Memory) (a : Nat) (bs : List Byte) (b : Nat) :
    (m.writeBytes a bs).read b = if a ≤ b then bs.getD (b - a) (m.read b) else m.read b := by
  induction bs generalizing m a with
  | nil => simp [Memory.writeBytes]
  | cons v bs ih =>
    simp only [Memory.writeBytes, ih, Memory.read_write_law]
    by_cases h1 : b = a
    · subst h1; simp
    · by_cases h2 : a ≤ b
      · have h3 : a + 1 ≤ b := by omega
        have h4 : b - a = (b - (a + 1)) + 1 := by omega
        simp [h1, h2, h3, h4]
      · have h3 : ¬ a + 1 ≤ b := by omega
        simp [h1, h2, h3]

theorem Memory.wf_writeBytes {m : Memory} (h : m.wf) {a : Nat} {bs : List Byte}
    (ha : a + bs.length ≤ Config.memSize) : (m.writeBytes a bs).wf := by
  induction bs generalizing m a with
  | nil => exact h
  | cons b bs ih =>
    simp only [List.length_cons] at ha
    exact ih (Memory.wf_write h (by omega) b) (by omega)

@[simp] theorem Memory.length_readBytes (m : Memory) (a n : Nat) : (m.readBytes a n).length = n := by
  induction n generalizing a with
  | zero => rfl
  | succ n ih => simp [Memory.readBytes, ih]

theorem Memory.getElem_readBytes (m : Memory) (a n k : Nat) (h : k < (m.readBytes a n).length) :
    (m.readBytes a n)[k] = m.read (a + k) := by
  induction n generalizing a k with
  | zero => simp [Memory.readBytes] at h
  | succ n ih =>
    cases k with
    | zero => simp [Memory.readBytes]
    | succ k =>
      simp only [Memory.readBytes, List.getElem_cons_succ]
      rw [ih]; congr 1; omega

/-! ## Range-checked accesses (R53) -/

theorem inMemory_iff (a n : Nat) : inMemory a n = true ↔ n = 0 ∨ a + n ≤ 0x1000 := by
  simp [inMemory]

theorem Memory.load?_eq (m : Memory) (a n : Nat) :
    m.load? a n = if n = 0 ∨ a + n ≤ 0x1000 then some (m.readBytes a n) else none := by
  simp only [Memory.load?, inMemory_iff]

theorem Memory.store?_eq (m : Memory) (a : Nat) (bs : List Byte) :
    m.store? a bs = if bs.length = 0 ∨ a + bs.length ≤ 0x1000 then some (m.writeBytes a bs) else none := by
  simp only [Memory.store?, inMemory_iff]

/-- All a range-checked store can do: it stores every byte inside the memory, or nothing (R53). -/
theorem Memory.store?_some {m m' : Memory} {a : Nat} {bs : List Byte} (h : m.store? a bs = some m') :
    m' = m.writeBytes a bs ∧ (bs.length = 0 ∨ a + bs.length ≤ 0x1000) := by
  rw [Memory.store?_eq] at h
  split at h
  · next hr => exact ⟨(Option.some.inj h).symm, hr⟩
  · cases h

theorem Memory.wf_store? {m m' : Memory} (hm : m.wf) {a : Nat} {bs : List Byte} (h : m.store? a bs = some m') :
    m'.wf := by
  obtain ⟨rfl, hr⟩ := Memory.store?_some h
  rcases hr with hr | hr
  · rw [List.length_eq_zero_iff.1 hr]; exact hm
  · exact Memory.wf_writeBytes hm hr

theorem Memory.font_store? {m m' : Memory} {a : Nat} {bs : List Byte} (h : m.store? a bs = some m') :
    m'.font = m.font := by
  rw [(Memory.store?_some h).1, Memory.writeBytes_font]

/-! ## The three places that write memory keep its form -/

theorem wf_reset (font : Vector Byte Config.fontSize) : (State.resetWith font).mem.wf := by
  simp [State.resetWith, Memory.wf]

theorem wf_placeWord {s : State} (h : s.mem.wf) (w : Word) : (s.placeWord w).mem.wf := by
  unfold State.placeWord
  split
  · next m hm => exact Memory.wf_store? h hm
  · exact h

theorem wf_loadProgram {s t : State} (h : s.mem.wf) {p : List Byte} (ht : loadProgram p s = .next t) : t.mem.wf := by
  unfold loadProgram at ht
  split at ht
  · split at ht
    · next hp =>
      cases ht
      refine Memory.wf_writeBytes h ?_
      simp only [programWellFormed, Config.progMax, decide_eq_true_eq] at hp
      simp only [Config.progBase, Config.memSize]; omega
    · cases ht; exact h
  · cases ht

end Sys2Proof.Machine
end

