-- ==== Sys2Proof/Laws/Exec.lean ====
section
/-! SUPPORT. What each shared operation can answer, and, once for all instructions, what the execute step can do
(`exec_cases`): it takes the fault the table names, or commits a staged state. -/

namespace Sys2Proof.Machine

/-! ## Shared operations -/

theorem finish_eq (k : PcClass) (s : State) : finish k s = .next (commit k s) := rfl

theorem trap_eq (c : Cause) (i : Instr) (s : State) : trap c i s = .next (takeFault c (encode i) s) := rfl

theorem push?_full {s : State} (h : s.sp.val = 16) (w : Word) : s.push? w = none := by
  simp [State.push?, h]

theorem push?_free {s : State} (h : s.sp.val < 16) (w : Word) :
    s.push? w = some { s with stack := s.stack.set s.sp.val w, sp := ⟨s.sp.val + 1, by omega⟩ } := by
  simp [State.push?, h]

theorem pop?_empty {s : State} (h : s.sp.val = 0) : s.pop? = none := by
  simp [State.pop?, h]

theorem pop?_used {s : State} (j : Fin 16) (h : s.sp.val = j.val + 1) :
    s.pop? = some (s.slot j, { s with sp := ⟨j.val, by omega⟩ }) := by
  simp [State.pop?, h, State.slot]

theorem keyIndex?_some {b : Byte} (h : b.toNat ≤ 0xF) : keyIndex? b = some ⟨b.toNat, by omega⟩ := by
  simp only [keyIndex?, dif_pos (show b.toNat < 16 by omega)]

theorem keyIndex?_none {b : Byte} (h : 0xF < b.toNat) : keyIndex? b = none := by
  simp only [keyIndex?, dif_neg (show ¬ b.toNat < 16 by omega)]

@[simp] theorem length_regsUpTo (s : State) (x : Reg) : (s.regsUpTo x).length = x.val + 1 := by
  simp [State.regsUpTo]

@[simp] theorem length_bcdDigits (b : Byte) : (bcdDigits b).length = 3 := rfl

theorem storeAtIndex_next (i : Instr) {bytes : List Byte} {s : State} (h : s.i.toNat + bytes.length ≤ 0x1000) :
    storeAtIndex i bytes s = .next (commit .next { s with mem := s.mem.writeBytes s.i.toNat bytes }) := by
  simp [storeAtIndex, Memory.store?_eq, State.indexAddr, h, finish_eq]

theorem storeAtIndex_trap (i : Instr) {bytes : List Byte} {s : State} (h : 0x1000 < s.i.toNat + bytes.length)
    (hb : bytes.length ≠ 0) : storeAtIndex i bytes s = .next (takeFault .addressOutOfRange (encode i) s) := by
  have h' : ¬ (bytes.length = 0 ∨ s.i.toNat + bytes.length ≤ 0x1000) := by omega
  simp only [storeAtIndex, Memory.store?_eq, State.indexAddr, if_neg h', trap_eq]

theorem skipOnKey_next (i : Instr) {x : Reg} (want : Bool) {s : State} (h : (s.reg x).toNat ≤ 0xF) :
    skipOnKey i x want s = .next (commit (.skip (s.key.getLsbD (s.reg x).toNat == want)) s) := by
  simp only [skipOnKey, keyIndex?_some h, finish_eq, State.pressed]

theorem skipOnKey_trap (i : Instr) {x : Reg} (want : Bool) {s : State} (h : 0xF < (s.reg x).toNat) :
    skipOnKey i x want s = .next (takeFault .keyIndexOutOfRange (encode i) s) := by
  simp only [skipOnKey, keyIndex?_none h, trap_eq]

theorem execDrw_next {x y : Reg} {n : Nibble} {s : State} (h : n.toNat = 0 ∨ s.i.toNat + n.toNat ≤ 0x1000) :
    execDrw x y n s = .next (commit .next
      (State.setReg
        { s with fb := (drawSprite (s.reg x) (s.reg y) (s.mem.readBytes s.i.toNat n.toNat) s.fb).fb } VF
        (flagByte (drawSprite (s.reg x) (s.reg y) (s.mem.readBytes s.i.toNat n.toNat) s.fb).collide))) := by
  simp only [execDrw, Memory.load?_eq, State.indexAddr, if_pos h, finish_eq]

theorem execDrw_trap {x y : Reg} {n : Nibble} {s : State} (h0 : 0 < n.toNat) (h : 0x1000 < s.i.toNat + n.toNat) :
    execDrw x y n s = .next (takeFault .addressOutOfRange (encode (.drw x y n)) s) := by
  have h' : ¬ (n.toNat = 0 ∨ s.i.toNat + n.toNat ≤ 0x1000) := by omega
  simp only [execDrw, Memory.load?_eq, State.indexAddr, if_neg h', trap_eq]

theorem execLoadRegs_next {x : Reg} {s : State} (h : s.i.toNat + x.val ≤ 0xFFF) :
    execLoadRegs x s =
      .next (commit .next { s with v := setRegsFrom s.v 0 (s.mem.readBytes s.i.toNat (x.val + 1)) }) := by
  have h' : x.val + 1 = 0 ∨ s.i.toNat + (x.val + 1) ≤ 0x1000 := by omega
  simp only [execLoadRegs, Memory.load?_eq, State.indexAddr, if_pos h', finish_eq]

theorem execLoadRegs_trap {x : Reg} {s : State} (h : 0xFFF < s.i.toNat + x.val) :
    execLoadRegs x s = .next (takeFault .addressOutOfRange (encode (.loadRegs x)) s) := by
  have h' : ¬ (x.val + 1 = 0 ∨ s.i.toNat + (x.val + 1) ≤ 0x1000) := by omega
  simp only [execLoadRegs, Memory.load?_eq, State.indexAddr, if_neg h', trap_eq]

theorem execLdVxK_waits {x : Reg} {s : State} (h : s.lowestEdge = none) : execLdVxK x s = .next (commit .wait s) := by
  simp only [execLdVxK, h]

theorem execLdVxK_next {x : Reg} {s : State} {k : Fin 16} (h : s.lowestEdge = some k) :
    execLdVxK x s = .next (commit .next (s.setReg x (BitVec.ofNat 8 k.val))) := by
  simp only [execLdVxK, h]

/-! ## Immediates and targets -/

@[simp] theorem zextImm_toNat (nnn : Imm12) : (zextImm nnn).toNat = nnn.toNat := by
  simp only [zextImm, BitVec.truncate_eq_setWidth, BitVec.toNat_setWidth]; have := nnn.isLt; omega

@[simp] theorem zextByte_toNat (b : Byte) : (zextByte b).toNat = b.toNat := by
  simp only [zextByte, BitVec.truncate_eq_setWidth, BitVec.toNat_setWidth]; have := b.isLt; omega

theorem offsetTarget_toNat (nnn : Imm12) (b : Byte) : (offsetTarget nnn b).toNat = nnn.toNat + b.toNat := by
  have := nnn.isLt; have := b.isLt
  simp only [offsetTarget, BitVec.toNat_add, zextImm_toNat, zextByte_toNat]; omega

theorem and_0xFFF_toNat (w : Word) : (w &&& 0x0FFF).toNat = w.toNat % 4096 := by
  rw [BitVec.toNat_and, show (0x0FFF : Word).toNat = 2 ^ 12 - 1 from rfl, Nat.and_two_pow_sub_one_eq_mod]

theorem indexPlus_toNat (i : Word) (b : Byte) : (indexPlus i b).toNat = (i.toNat + b.toNat) % 4096 := by
  simp only [indexPlus, and_0xFFF_toNat, BitVec.toNat_add, zextByte_toNat]; omega

theorem glyphAddr_toNat (b : Byte) : (glyphAddr b).toNat = 5 * (b.toNat % 16) := by
  have h : (b &&& 0x0F).toNat = b.toNat % 16 := by
    rw [BitVec.toNat_and, show (0x0F : Byte).toNat = 2 ^ 4 - 1 from rfl, Nat.and_two_pow_sub_one_eq_mod]
  simp only [glyphAddr, h, Config.fontStride, BitVec.toNat_ofNat]; omega

/-! ## The execute step -/

/-- What the execute step leaves as it is in the staged state `u`, and how far its writes to I, the stack and memory can
go. -/
structure StagedFrom (s u : State) : Prop where
  pc : u.pc = s.pc
  keyPrev : u.keyPrev = s.keyPrev
  waiting : u.waiting = s.waiting
  faulted : u.faulted = s.faulted
  faultCode : u.faultCode = s.faultCode
  faultPc : u.faultPc = s.faultPc
  faultInstr : u.faultInstr = s.faultInstr
  inputs : u.inputs = s.inputs
  cycle : u.cycle = s.cycle
  loadOpen : u.loadOpen = s.loadOpen
  font : u.mem.font = s.mem.font
  memory : s.mem.wf → u.mem.wf
  index : u.i = s.i ∨ u.i.toNat ≤ 0xFFF
  slots : ∀ j, u.slot j = s.slot j ∨ u.slot j = s.pc + 2

theorem StagedFrom.key {s u : State} (h : StagedFrom s u) : u.key = s.key := by
  simp only [State.key, State.sample_congr h.inputs h.cycle]

theorem StagedFrom.refl (s : State) : StagedFrom s s :=
  ⟨rfl, rfl, rfl, rfl, rfl, rfl, rfl, rfl, rfl, rfl, rfl, id, .inl rfl, fun _ => .inl rfl⟩

theorem StagedFrom.setReg (s : State) (x : Reg) (b : Byte) : StagedFrom s (s.setReg x b) :=
  ⟨rfl, rfl, rfl, rfl, rfl, rfl, rfl, rfl, rfl, rfl, rfl, id, .inl rfl, fun _ => .inl rfl⟩

theorem StagedFrom.setFlagThenReg (s : State) (f : Bool) (x : Reg) (b : Byte) :
    StagedFrom s (s.setFlagThenReg f x b) :=
  ⟨rfl, rfl, rfl, rfl, rfl, rfl, rfl, rfl, rfl, rfl, rfl, id, .inl rfl, fun _ => .inl rfl⟩

/-- The target of a jump of `k`: a 16-bit sum of an immediate and a byte, or a stack slot. -/
def JumpsTo (k : PcClass) (s : State) : Prop :=
  ∀ w, k = .jump w → w.toNat ≤ 0x10FE ∨ ∃ j, w = s.slot j

/-- Executing `i` in `s` commits the staged state `u` with class `k`; only an FX0A without a press edge waits, and it
stages nothing. -/
structure Commits (i : Instr) (s : State) (k : PcClass) (u : State) : Prop where
  eq : exec i s = .next (commit k u)
  staged : StagedFrom s u
  waits : k.waits = true ↔ (∃ x, i = .ldVxK x) ∧ s.lowestEdge = none
  stays : k.waits = true → u = s
  jumps : JumpsTo k s

theorem commits_next {i : Instr} {s u : State} (eq : exec i s = .next (commit .next u)) (h : StagedFrom s u)
    (hi : ∀ x, i ≠ .ldVxK x) : Commits i s .next u :=
  ⟨eq, h, by simp [PcClass.waits]; intro x hx; exact absurd hx (hi x), by simp [PcClass.waits], by simp [JumpsTo]⟩

theorem commits_skip {i : Instr} {s : State} {c : Bool} (eq : exec i s = .next (commit (.skip c) s))
    (hi : ∀ x, i ≠ .ldVxK x) : Commits i s (.skip c) s :=
  ⟨eq, .refl s, by simp [PcClass.waits]; intro x hx; exact absurd hx (hi x), by simp [PcClass.waits], by simp [JumpsTo]⟩

theorem commits_jump {i : Instr} {s u : State} {w : Word} (eq : exec i s = .next (commit (.jump w) u))
    (h : StagedFrom s u) (hi : ∀ x, i ≠ .ldVxK x) (hw : w.toNat ≤ 0x10FE ∨ ∃ j, w = s.slot j) :
    Commits i s (.jump w) u :=
  ⟨eq, h, by simp [PcClass.waits]; intro x hx; exact absurd hx (hi x), by simp [PcClass.waits],
    fun _ he => by cases he; exact hw⟩

/-- All the execute step can do: take the one fault the table names for the instruction, or, where it names none, commit
a staged state. -/
theorem exec_cases (i : Instr) (s : State) :
    (∃ c, instrFault i s = some c ∧ exec i s = .next (takeFault c (encode i) s)) ∨
    (instrFault i s = none ∧ ∃ k u, Commits i s k u) := by
  have imm : ∀ nnn : Imm12, (zextImm nnn).toNat ≤ 0x10FE := fun nnn => by
    have := nnn.isLt; rw [zextImm_toNat]; omega
  have store : ∀ (i : Instr) (bytes : List Byte) (n : Nat), (∀ x, i ≠ .ldVxK x) → bytes.length = n + 1 →
      exec i s = storeAtIndex i bytes s →
      instrFault i s = (if 0xFFF < s.i.toNat + n then some .addressOutOfRange else none) →
      (∃ c, instrFault i s = some c ∧ exec i s = .next (takeFault c (encode i) s)) ∨
      (instrFault i s = none ∧ ∃ k u, Commits i s k u) := by
    intro i bytes n hi hlen hex hf
    by_cases h : 0xFFF < s.i.toNat + n
    · exact .inl ⟨.addressOutOfRange, by rw [hf, if_pos h], by rw [hex, storeAtIndex_trap i (by omega) (by omega)]⟩
    · refine .inr ⟨by rw [hf, if_neg h], .next, _,
        commits_next (by rw [hex, storeAtIndex_next i (by omega)]) ?_ hi⟩
      exact ⟨rfl, rfl, rfl, rfl, rfl, rfl, rfl, rfl, rfl, rfl, by simp,
        fun hm => Memory.wf_writeBytes hm (by simp only [Config.memSize]; omega), .inl rfl, fun _ => .inl rfl⟩
  have skipKey : ∀ (i : Instr) (x : Reg) (want : Bool), (∀ x, i ≠ .ldVxK x) →
      exec i s = skipOnKey i x want s →
      instrFault i s = (if 0xF < (s.reg x).toNat then some .keyIndexOutOfRange else none) →
      (∃ c, instrFault i s = some c ∧ exec i s = .next (takeFault c (encode i) s)) ∨
      (instrFault i s = none ∧ ∃ k u, Commits i s k u) := by
    intro i x want hi hex hf
    by_cases h : 0xF < (s.reg x).toNat
    · exact .inl ⟨.keyIndexOutOfRange, by rw [hf, if_pos h], by rw [hex, skipOnKey_trap i want h]⟩
    · exact .inr ⟨by rw [hf, if_neg h], _, s,
        commits_skip (by rw [hex, skipOnKey_next i want (by omega)]) hi⟩
  have index : ∀ (i : Instr) (w : Word), (∀ x, i ≠ .ldVxK x) → exec i s = finish .next { s with i := w } →
      w.toNat ≤ 0xFFF → ∃ k u, Commits i s k u := by
    intro i w hi hex hw
    exact ⟨.next, _, commits_next hex
      ⟨rfl, rfl, rfl, rfl, rfl, rfl, rfl, rfl, rfl, rfl, rfl, id, .inr hw, fun _ => .inl rfl⟩ hi⟩
  cases i with
  | cls =>
    exact .inr ⟨rfl, _, _, commits_next rfl
      ⟨rfl, rfl, rfl, rfl, rfl, rfl, rfl, rfl, rfl, rfl, rfl, id, .inl rfl, fun _ => .inl rfl⟩ (by simp)⟩
  | ret =>
    by_cases h : s.sp.val = 0
    · exact .inl ⟨.stackUnderflow, by simp only [instrFault, if_pos h], by simp only [exec, execRet, pop?_empty h, trap_eq]⟩
    · refine .inr ⟨by simp only [instrFault, if_neg h], ?_⟩
      have hj : s.sp.val = (⟨s.sp.val - 1, by omega⟩ : Fin 16).val + 1 := by simp only; omega
      have eq : exec .ret s = .next (commit (.jump (s.slot ⟨s.sp.val - 1, by omega⟩))
          { s with sp := ⟨s.sp.val - 1, by omega⟩ }) := by simp only [exec, execRet, pop?_used _ hj, finish_eq]
      exact ⟨_, _, commits_jump eq
        ⟨rfl, rfl, rfl, rfl, rfl, rfl, rfl, rfl, rfl, rfl, rfl, id, .inl rfl, fun _ => .inl rfl⟩ (by simp)
        (.inr ⟨_, rfl⟩)⟩
  | jp nnn => exact .inr ⟨rfl, _, _, commits_jump rfl (.refl s) (by simp) (.inl (imm nnn))⟩
  | call nnn =>
    by_cases h : s.sp.val = 16
    · exact .inl ⟨.stackOverflow, by simp only [instrFault, if_pos h], by simp only [exec, execCall, push?_full h, trap_eq]⟩
    · have hs : s.sp.val < 16 := by omega
      have eq : exec (.call nnn) s = .next (commit (.jump (zextImm nnn))
          { s with stack := s.stack.set s.sp.val (s.pc + 2), sp := ⟨s.sp.val + 1, by omega⟩ }) := by
        simp only [exec, execCall, push?_free hs, finish_eq]
      refine .inr ⟨by simp only [instrFault, if_neg h], _, _, commits_jump eq
        ⟨rfl, rfl, rfl, rfl, rfl, rfl, rfl, rfl, rfl, rfl, rfl, id, .inl rfl, fun j => ?_⟩ (by simp) (.inl (imm nnn))⟩
      simp only [State.slot, Vector.getElem_set]
      split
      · exact .inr rfl
      · exact .inl rfl
  | seImm x kk => exact .inr ⟨rfl, _, _, commits_skip rfl (by simp)⟩
  | sneImm x kk => exact .inr ⟨rfl, _, _, commits_skip rfl (by simp)⟩
  | seReg x y => exact .inr ⟨rfl, _, _, commits_skip rfl (by simp)⟩
  | ldImm x kk => exact .inr ⟨rfl, _, _, commits_next rfl (.setReg ..) (by simp)⟩
  | addImm x kk => exact .inr ⟨rfl, _, _, commits_next rfl (.setReg ..) (by simp)⟩
  | ldReg x y => exact .inr ⟨rfl, _, _, commits_next rfl (.setReg ..) (by simp)⟩
  | orReg x y => exact .inr ⟨rfl, _, _, commits_next rfl (.setReg ..) (by simp)⟩
  | andReg x y => exact .inr ⟨rfl, _, _, commits_next rfl (.setReg ..) (by simp)⟩
  | xorReg x y => exact .inr ⟨rfl, _, _, commits_next rfl (.setReg ..) (by simp)⟩
  | addReg x y => exact .inr ⟨rfl, _, _, commits_next rfl (.setFlagThenReg ..) (by simp)⟩
  | subReg x y => exact .inr ⟨rfl, _, _, commits_next rfl (.setFlagThenReg ..) (by simp)⟩
  | shr x y => exact .inr ⟨rfl, _, _, commits_next rfl (.setFlagThenReg ..) (by simp)⟩
  | subn x y => exact .inr ⟨rfl, _, _, commits_next rfl (.setFlagThenReg ..) (by simp)⟩
  | shl x y => exact .inr ⟨rfl, _, _, commits_next rfl (.setFlagThenReg ..) (by simp)⟩
  | sneReg x y => exact .inr ⟨rfl, _, _, commits_skip rfl (by simp)⟩
  | ldI nnn => exact .inr ⟨rfl, index _ _ (by simp) rfl (by have := nnn.isLt; rw [zextImm_toNat]; omega)⟩
  | jpV0 nnn =>
    refine .inr ⟨rfl, _, _, commits_jump rfl (.refl s) (by simp) (.inl ?_)⟩
    have := nnn.isLt; have := (s.reg V0).isLt; rw [offsetTarget_toNat]; omega
  | rnd x kk => exact .inr ⟨rfl, _, _, commits_next rfl (.setReg ..) (by simp)⟩
  | drw x y n =>
    by_cases h : 0 < n.toNat ∧ 0xFFF < s.i.toNat + n.toNat - 1
    · exact .inl ⟨.addressOutOfRange, by simp only [instrFault, if_pos h], execDrw_trap h.1 (by omega)⟩
    · exact .inr ⟨by simp only [instrFault, if_neg h], _, _,
        commits_next (i := .drw x y n) (execDrw_next (by omega))
        ⟨rfl, rfl, rfl, rfl, rfl, rfl, rfl, rfl, rfl, rfl, rfl, id, .inl rfl, fun _ => .inl rfl⟩ (by simp)⟩
  | skp x => exact skipKey _ x true (by simp) rfl rfl
  | sknp x => exact skipKey _ x false (by simp) rfl rfl
  | ldVxDt x => exact .inr ⟨rfl, _, _, commits_next rfl (.setReg ..) (by simp)⟩
  | ldVxK x =>
    refine .inr ⟨rfl, ?_⟩
    cases h : s.lowestEdge with
    | none =>
      exact ⟨.wait, s, execLdVxK_waits h, .refl s, by simp [PcClass.waits, h], fun _ => rfl, by simp [JumpsTo]⟩
    | some k =>
      exact ⟨.next, _, execLdVxK_next h, .setReg .., by simp [PcClass.waits, h], by simp [PcClass.waits],
        by simp [JumpsTo]⟩
  | ldDtVx x =>
    exact .inr ⟨rfl, _, _, commits_next rfl
      ⟨rfl, rfl, rfl, rfl, rfl, rfl, rfl, rfl, rfl, rfl, rfl, id, .inl rfl, fun _ => .inl rfl⟩ (by simp)⟩
  | ldStVx x =>
    exact .inr ⟨rfl, _, _, commits_next rfl
      ⟨rfl, rfl, rfl, rfl, rfl, rfl, rfl, rfl, rfl, rfl, rfl, id, .inl rfl, fun _ => .inl rfl⟩ (by simp)⟩
  | addI x =>
    refine .inr ⟨rfl, index _ _ (by simp) rfl ?_⟩
    rw [indexPlus_toNat]; omega
  | ldF x =>
    refine .inr ⟨rfl, index _ _ (by simp) rfl ?_⟩
    rw [glyphAddr_toNat]; omega
  | ldB x => exact store _ _ 2 (by simp) rfl rfl rfl
  | storeRegs x => exact store _ _ x.val (by simp) (by simp) rfl rfl
  | loadRegs x =>
    by_cases h : 0xFFF < s.i.toNat + x.val
    · exact .inl ⟨.addressOutOfRange, by simp only [instrFault, if_pos h], execLoadRegs_trap h⟩
    · exact .inr ⟨by simp only [instrFault, if_neg h], _, _,
        commits_next (i := .loadRegs x) (execLoadRegs_next (by omega))
        ⟨rfl, rfl, rfl, rfl, rfl, rfl, rfl, rfl, rfl, rfl, rfl, id, .inl rfl, fun _ => .inl rfl⟩ (by simp)⟩

end Sys2Proof.Machine
end

