-- ==== Sys2Proof/Laws/Operands.lean ====
section
/-! SUPPORT. What the operand forms of Machine/Operands.lean and the register block operations give. -/

namespace Sys2Proof.Machine

/-! ## Register blocks (R164, R165) -/

theorem getElem_setRegsFrom (v : Vector Byte 16) (k : Nat) (bs : List Byte) (r : Nat) (hr : r < 16) :
    (setRegsFrom v k bs)[r] = if k ≤ r then bs.getD (r - k) v[r] else v[r] := by
  induction bs generalizing v k with
  | nil => simp [setRegsFrom]
  | cons b bs ih =>
    simp only [setRegsFrom, ih, Vector.getElem_setIfInBounds]
    by_cases h1 : k = r
    · subst h1; simp
    · by_cases h2 : k ≤ r
      · have h3 : k + 1 ≤ r := by omega
        have h4 : r - k = (r - (k + 1)) + 1 := by omega
        simp [h1, h2, h3, h4]
      · have h3 : ¬ k + 1 ≤ r := by omega
        simp [h1, h2, h3]

theorem getD_regsUpTo (s : State) {x r : Reg} (h : r ≤ x) (d : Byte) : (s.regsUpTo x).getD r.val d = s.reg r := by
  have := Fin.le_def.1 h
  simp [State.regsUpTo, State.reg, show r.val < x.val + 1 by omega]

/-! ## Subtraction (R139, R141) -/

theorem sub_toNat (a b : Byte) : ((a - b).toNat : Int) = (a.toNat - b.toNat : Int) % 256 := by
  have := a.isLt; have := b.isLt
  rw [BitVec.toNat_sub]; omega

/-! ## Press edges (R205, R206) -/

theorem pressEdge_iff (s : State) (k : Fin 16) :
    s.pressEdge k = true ↔ s.key.getLsbD k.val = true ∧ s.keyPrev.getLsbD k.val = false := by
  simp only [State.pressEdge, State.pressed, Bool.and_eq_true, Bool.not_eq_true']

theorem lowestEdge_none (s : State) :
    s.lowestEdge = none ↔ ∀ k : Fin 16, ¬ (s.key.getLsbD k.val = true ∧ s.keyPrev.getLsbD k.val = false) := by
  simp only [State.lowestEdge, List.find?_eq_none, pressEdge_iff, List.mem_finRange, true_implies]

/-- The first key that `find?` meets in rising order is the lowest. -/
theorem lowestEdge_some (s : State) (k : Fin 16) (hk : s.pressEdge k = true) (hl : ∀ j, j < k → s.pressEdge j = false) :
    s.lowestEdge = some k := by
  unfold State.lowestEdge
  cases hf : (List.finRange 16).find? s.pressEdge with
  | none => exact absurd hk (List.find?_eq_none.1 hf k (List.mem_finRange _))
  | some j =>
    obtain ⟨hj, before, after, happ, hb⟩ := List.find?_eq_some_iff_append.1 hf
    have rising : (List.finRange 16).Pairwise (· < ·) := by decide
    have hm : k ∈ List.finRange 16 := List.mem_finRange k
    rw [happ] at rising hm
    rcases List.mem_append.1 hm with h | h
    · simpa [hk] using hb k h
    · rcases List.mem_cons.1 h with rfl | h
      · rfl
      · have hjk := (List.pairwise_cons.1 (List.pairwise_append.1 rising).2.1).1 k h
        simp [hl j hjk] at hj

end Sys2Proof.Machine
end

