-- ==== Sys2Proof/Laws/Cycle.lean ====
section
/-! SUPPORT. The frames of Sys2Proof/Safety.lean, proved once for a committed cycle and once for a fault; fetch and the
two ways a step's front end can go. -/

namespace Sys2Proof.Machine

/-! ## A committed cycle (R97 to R100) -/

theorem timersTicked_commit {s u : State} (k : PcClass) (hk : k.waits = false) (hd : u.dt = s.dt) (hs : u.st = s.st) :
    TimersTicked s (commit k u) := by
  simp [TimersTicked, hk, hd, hs, tickTimer_toNat]

theorem cycleClosed_commit {s u : State} (k : PcClass) (hk : k.waits = false) (h : StagedFrom s u) :
    CycleClosed s (commit k u) := by
  simp [CycleClosed, SameRecord, SamePorts, hk, h.key, h.faulted, h.faultCode, h.faultPc, h.faultInstr, h.font,
    h.inputs, h.cycle, h.loadOpen]

theorem pcCycle_commit (s : State) (k : PcClass) (hk : k.waits = false) : PcCycle s (commit k s) :=
  ⟨fun r => by simp, by simp, ⟨by simp, fun j => by simp⟩, fun a => by simp, fun y x => by simp,
    timersTicked_commit k hk rfl rfl, cycleClosed_commit k hk (.refl s)⟩

theorem registerCycle_commit {s u : State} (h : StagedFrom s u) (hi : u.i = s.i) (hsp : u.sp = s.sp)
    (hst : u.stack = s.stack) (hm : u.mem = s.mem) (hf : u.fb = s.fb) (hd : u.dt = s.dt) (ht : u.st = s.st) :
    RegisterCycle s (commit .next u) :=
  ⟨by simp [advancePc, h.pc], by simp [hi], ⟨by simp [hsp], fun j => by simp [State.slot, hst]⟩,
    fun a => by simp [hm], fun y x => by simp [hf], timersTicked_commit _ rfl hd ht, cycleClosed_commit _ rfl h⟩

theorem registerCycle_setReg (s : State) (x : Reg) (b : Byte) : RegisterCycle s (commit .next (s.setReg x b)) :=
  registerCycle_commit (.setReg ..) rfl rfl rfl rfl rfl rfl rfl

theorem registerCycle_setFlagThenReg (s : State) (f : Bool) (x : Reg) (b : Byte) :
    RegisterCycle s (commit .next (s.setFlagThenReg f x b)) :=
  registerCycle_commit (.setFlagThenReg ..) rfl rfl rfl rfl rfl rfl rfl

theorem sameRegsBut_setReg (s : State) (k : PcClass) (x : Reg) (b : Byte) :
    SameRegsBut x s (commit k (s.setReg x b)) := fun r h => by simp [State.reg_setReg, h]

theorem sameRegsButFlagAnd_setFlagThenReg (s : State) (k : PcClass) (f : Bool) (x : Reg) (b : Byte) :
    SameRegsButFlagAnd x s (commit k (s.setFlagThenReg f x b)) := fun r h h' => by
  simp [State.reg_setFlagThenReg, h, h']

theorem flag_setFlagThenReg (s : State) (k : PcClass) (f : Bool) {x : Reg} (b : Byte) (h : x ≠ VF) :
    (commit k (s.setFlagThenReg f x b)).reg VF = flagByte f := by
  simp [State.reg_setFlagThenReg, Ne.symm h]

/-! ## A fault (R221, R223) -/

theorem allButRecord_takeFault (c : Cause) (w : Word) (s : State) : AllButRecord s (takeFault c w s) :=
  ⟨fun _ => rfl, rfl, rfl, ⟨rfl, fun _ => rfl⟩, fun _ => rfl, fun _ _ => rfl, rfl, rfl, rfl, rfl⟩

theorem recordSays_takeFault (c : Cause) (w : Word) (s : State) : RecordSays c w s (takeFault c w s) :=
  ⟨rfl, rfl, rfl, rfl⟩

theorem raises_of_takeFault {i : Instr} {s : State} {c : Cause} (h : exec i s = .next (takeFault c (encode i) s)) :
    Raises i s c :=
  ⟨_, h, recordSays_takeFault .., allButRecord_takeFault .., rfl, rfl, rfl, rfl⟩

/-! ## Fetch and the front end (R94, R95) -/

theorem fetch_inside {s : State} (h : s.pc.toNat ≤ 0xFFE) :
    fetch s = some (joinBytes (s.mem.read s.pc.toNat) (s.mem.read (s.pc.toNat + 1))) := by
  simp only [fetch, if_pos h]

theorem fetch_outside {s : State} (h : 0xFFE < s.pc.toNat) : fetch s = none := by
  simp only [fetch, if_neg (Nat.not_le.2 h)]

theorem frontEnd_outside {s : State} (h : 0xFFE < s.pc.toNat) :
    frontEnd s = .stop (takeFault .fetchOutOfRange 0 s) := by
  simp only [frontEnd, fetch_outside h]

theorem frontEnd_unknown {s : State} {w v : Word} (hf : fetch s = some w) (hd : decodeWord w = .unknown v) :
    frontEnd s = .stop (takeFault .unknownOpcode v s) := by
  simp only [frontEnd, hf, hd]

theorem frontEnd_run {s : State} {w : Word} {i : Instr} (hf : fetch s = some w) (hd : decodeWord w = .instr i) :
    frontEnd s = .run i := by
  simp only [frontEnd, hf, hd]

/-- Memory and PC decide what is fetched. -/
theorem fetch_congr {s t : State} (hp : t.pc = s.pc) (hm : t.mem = s.mem) : fetch t = fetch s := by
  simp only [fetch, hp, hm]

/-- A word placed at PC is the word fetched there. -/
theorem fetch_placeWord {s : State} (h : s.pc.toNat ≤ 0xFFE) (w : Word) : fetch (s.placeWord w) = some w := by
  have hs : s.mem.store? s.pc.toNat (wordBytes w) = some (s.mem.writeBytes s.pc.toNat (wordBytes w)) := by
    rw [Memory.store?_eq, if_pos (.inr (by simp only [wordBytes, List.length_cons, List.length_nil]; omega))]
  have hp : s.placeWord w = { s with mem := s.mem.writeBytes s.pc.toNat (wordBytes w) } := by
    simp only [State.placeWord, hs]
  rw [hp, fetch_inside (by exact h)]
  simp [Memory.read_writeBytes, wordBytes]

/-! ## The step -/

theorem step_faulted {s : State} (h : s.faulted = true) : step s = .next s := by simp only [step, if_pos h]

theorem step_stop {s t : State} (h : s.faulted = false) (hf : frontEnd s = .stop t) : step s = .next t.closeCycle := by
  simp [step, h, hf]

theorem step_run {s : State} {i : Instr} (h : s.faulted = false) (hf : frontEnd s = .run i) :
    step s = mapNext State.closeCycle (exec i s) := by
  simp [step, h, hf]

end Sys2Proof.Machine
end

