-- ==== Sys2Proof/Laws/Display.lean ====
section
/-! SUPPORT. What the sprite compositor does to each pixel and when it notes a collision (44_display.md R181 to R183): a
sprite is at most 8 columns and 15 rows, so no two of its bits land on one pixel. -/

namespace Sys2Proof.Machine

theorem FrameBuffer.pixel_flip (fb : FrameBuffer) (y y' : Fin 32) (x x' : Fin 64) :
    (fb.flip y x).pixel y' x' = if y' = y ∧ x' = x then !fb.pixel y' x' else fb.pixel y' x' := by
  simp only [FrameBuffer.flip, FrameBuffer.pixel, Vector.getElem_set]
  by_cases hy : y = y'
  · subst hy
    by_cases hx : x = x'
    · subst hx; simp
    · have : x.val ≠ x'.val := fun h => hx (Fin.ext h)
      simp [Ne.symm hx, this]
  · have : y.val ≠ y'.val := fun h => hy (Fin.ext h)
    simp [Ne.symm hy, this]

/-- A lit bit among the first `k` columns of a sprite byte lands on column `px`. -/
def ByteLands (x0 b : Byte) (k : Nat) (px : Fin 64) : Prop :=
  ∃ col, col < k ∧ (x0.toNat + col) % 64 = px.val ∧ b.getLsbD (7 - col) = true

/-- A lit bit of the bytes, drawn from row number `row` down, lands on row `py`, column `px`. -/
def RowsLand (x0 y0 : Byte) (row : Nat) (bs : List Byte) (py : Fin 32) (px : Fin 64) : Prop :=
  ∃ j b, bs[j]? = some b ∧ (y0.toNat + (row + j)) % 32 = py.val ∧ ByteLands x0 b 8 px

theorem byteLands_succ (x0 b : Byte) (k : Nat) (px : Fin 64) :
    ByteLands x0 b (k + 1) px ↔ ByteLands x0 b k px ∨ (px = spriteColumn x0 k ∧ b.getLsbD (7 - k) = true) := by
  constructor
  · rintro ⟨col, h1, h2, h3⟩
    by_cases h : col = k
    · subst h; exact .inr ⟨Fin.ext h2.symm, h3⟩
    · exact .inl ⟨col, by omega, h2, h3⟩
  · rintro (⟨col, h1, h2, h3⟩ | ⟨rfl, h⟩)
    · exact ⟨col, by omega, h2, h3⟩
    · exact ⟨k, by omega, rfl, h⟩

theorem rowsLand_cons (x0 y0 : Byte) (row : Nat) (b : Byte) (bs : List Byte) (py : Fin 32) (px : Fin 64) :
    RowsLand x0 y0 row (b :: bs) py px ↔
      RowsLand x0 y0 (row + 1) bs py px ∨ (py = spriteRow y0 row ∧ ByteLands x0 b 8 px) := by
  constructor
  · rintro ⟨j, b', h1, h2, h3⟩
    cases j with
    | zero => simp at h1; subst h1; exact .inr ⟨Fin.ext h2.symm, h3⟩
    | succ j => exact .inl ⟨j, b', by simpa using h1, by rw [← h2]; congr 1; omega, h3⟩
  · rintro (⟨j, b', h1, h2, h3⟩ | ⟨rfl, h⟩)
    · exact ⟨j + 1, b', by simpa using h1, by rw [← h2]; congr 1; omega, h3⟩
    · exact ⟨0, b, rfl, rfl, h⟩

/-- The first `k` columns of one sprite byte. -/
theorem drawBits_law (x0 : Byte) (y : Fin 32) (b : Byte) (c : Canvas) (k : Nat) (hk : k ≤ 8) :
    let d := (List.range k).foldl (drawBit x0 y b) c
    (∀ py px, py = y ∧ ByteLands x0 b k px → d.fb.pixel py px = !c.fb.pixel py px) ∧
    (∀ py px, ¬ (py = y ∧ ByteLands x0 b k px) → d.fb.pixel py px = c.fb.pixel py px) ∧
    (d.collide = true ↔ c.collide = true ∨ ∃ px, ByteLands x0 b k px ∧ c.fb.pixel y px = true) := by
  induction k with
  | zero => simp [ByteLands]
  | succ k ih =>
    obtain ⟨i1, i2, i3⟩ := ih (by omega)
    simp only [List.range_succ, List.foldl_append, List.foldl_cons, List.foldl_nil]
    generalize (List.range k).foldl (drawBit x0 y b) c = e at *
    have fresh : ¬ ByteLands x0 b k (spriteColumn x0 k) := by
      rintro ⟨col, h1, h2, _⟩
      simp only [spriteColumn] at h2
      omega
    by_cases hb : b.getLsbD (7 - k) = true
    · have he : drawBit x0 y b e k =
          { fb := e.fb.flip y (spriteColumn x0 k), collide := e.collide || e.fb.pixel y (spriteColumn x0 k) } := by
        simp only [drawBit, spriteBit, hb, if_true]
      rw [he]
      simp only [FrameBuffer.pixel_flip, byteLands_succ, hb, and_true]
      refine ⟨?_, ?_, ?_⟩
      · rintro py px ⟨rfl, h⟩
        by_cases hx : px = spriteColumn x0 k
        · subst hx; simp; exact i2 _ _ (fun h => fresh h.2)
        · simp [hx]; exact i1 _ _ ⟨rfl, by simpa [hx] using h⟩
      · intro py px h
        by_cases hx : py = y ∧ px = spriteColumn x0 k
        · exact absurd ⟨hx.1, .inr hx.2⟩ h
        · rw [if_neg hx]; exact i2 _ _ (fun h' => h ⟨h'.1, .inl h'.2⟩)
      · rw [Bool.or_eq_true, i3, i2 y (spriteColumn x0 k) (fun h => fresh h.2)]
        constructor
        · rintro ((h | ⟨px, h1, h2⟩) | h)
          · exact .inl h
          · exact .inr ⟨px, .inl h1, h2⟩
          · exact .inr ⟨_, .inr rfl, h⟩
        · rintro (h | ⟨px, h1 | rfl, h2⟩)
          · exact .inl (.inl h)
          · exact .inl (.inr ⟨px, h1, h2⟩)
          · exact .inr h2
    · have he : drawBit x0 y b e k = e := if_neg hb
      have hf : b.getLsbD (7 - k) = false := by simpa using hb
      rw [he]
      simp only [byteLands_succ, hf, Bool.false_eq_true, and_false, or_false]
      exact ⟨i1, i2, i3⟩

/-- Sprite rows that fit the framebuffer's 32. -/
theorem drawRows_law (x0 y0 : Byte) (bs : List Byte) (row : Nat) (c : Canvas) (hl : row + bs.length ≤ 32) :
    let d := drawRows x0 y0 row c bs
    (∀ py px, RowsLand x0 y0 row bs py px → d.fb.pixel py px = !c.fb.pixel py px) ∧
    (∀ py px, ¬ RowsLand x0 y0 row bs py px → d.fb.pixel py px = c.fb.pixel py px) ∧
    (d.collide = true ↔ c.collide = true ∨ ∃ py px, RowsLand x0 y0 row bs py px ∧ c.fb.pixel py px = true) := by
  induction bs generalizing row c with
  | nil => simp [RowsLand, drawRows]
  | cons b bs ih =>
    simp only [List.length_cons] at hl
    obtain ⟨r1, r2, r3⟩ := drawBits_law x0 (spriteRow y0 row) b c 8 (by omega)
    obtain ⟨i1, i2, i3⟩ := ih (row + 1) (drawByte x0 (spriteRow y0 row) b c) (by omega)
    rw [show (List.range 8).foldl (drawBit x0 (spriteRow y0 row) b) c = drawByte x0 (spriteRow y0 row) b c from rfl]
      at r1 r2 r3
    simp only [drawRows]
    generalize drawByte x0 (spriteRow y0 row) b c = e at *
    have fresh : ∀ px, ¬ RowsLand x0 y0 (row + 1) bs (spriteRow y0 row) px := by
      rintro px ⟨j, b', h1, h2, _⟩
      have : j < bs.length := (List.getElem?_eq_some_iff.1 h1).1
      simp only [spriteRow] at h2
      omega
    simp only [rowsLand_cons]
    refine ⟨?_, ?_, ?_⟩
    · rintro py px (h | h)
      · rw [i1 _ _ h, r2 _ _ (fun h' => by rw [h'.1] at h; exact fresh _ h)]
      · rw [i2 _ _ (fun h' => by rw [h.1] at h'; exact fresh _ h'), r1 _ _ h]
    · intro py px h
      rw [i2 _ _ (fun h' => h (.inl h')), r2 _ _ (fun h' => h (.inr h'))]
    · rw [i3, r3]
      constructor
      · rintro ((h | ⟨px, h1, h2⟩) | ⟨py, px, h1, h2⟩)
        · exact .inl h
        · exact .inr ⟨_, px, .inr ⟨rfl, h1⟩, h2⟩
        · refine .inr ⟨py, px, .inl h1, ?_⟩
          rwa [r2 _ _ (fun h' => by rw [h'.1] at h1; exact fresh _ h1)] at h2
      · rintro (h | ⟨py, px, h1 | ⟨rfl, h1⟩, h2⟩)
        · exact .inl (.inl h)
        · refine .inr ⟨py, px, h1, ?_⟩
          rwa [r2 _ _ (fun h' => by rw [h'.1] at h1; exact fresh _ h1)]
        · exact .inl (.inr ⟨px, h1, h2⟩)

/-- The bytes a draw loads land where R182 says. -/
theorem rowsLand_readBytes (s : State) (x0 y0 : Byte) (n : Nat) (py : Fin 32) (px : Fin 64) :
    RowsLand x0 y0 0 (s.mem.readBytes s.i.toNat n) py px ↔ LandsOn s x0 y0 n py px := by
  constructor
  · rintro ⟨j, b, h1, h2, col, h3, h4, h5⟩
    obtain ⟨hj, rfl⟩ := List.getElem?_eq_some_iff.1 h1
    rw [Memory.getElem_readBytes] at h5
    exact ⟨j, col, by simpa using hj, h3, by simpa using h2, h4, h5⟩
  · rintro ⟨j, col, hj, h3, h2, h4, h5⟩
    refine ⟨j, _, List.getElem?_eq_some_iff.2 ⟨by simpa using hj, rfl⟩, by simpa using h2, col, h3, h4, ?_⟩
    rw [Memory.getElem_readBytes]; exact h5

end Sys2Proof.Machine
end

