-- ==== Sys2Proof/Laws/PerInstr.lean ====
section
/-! SUPPORT. Family MatchesRow: the encoding of every instruction is selected by its row of the opcode map
(30_encoding.md R73): `encode i & mask = match`. -/

namespace Sys2Proof

/-! ## The fixed bits of a word built from fields -/

theorem wordXYN_fixed (f n : Nibble) (x y : Reg) : wordXYN f x y n &&& 0xF00F = wordXYN f 0 0 n := by
  apply BitVec.eq_of_getLsbD_eq; intro i hi
  simp only [wordXYN, BitVec.getLsbD_and, BitVec.getLsbD_append]
  interval_cases i <;> simp [regField]

theorem wordXYN_family (f n : Nibble) (x y : Reg) : wordXYN f x y n &&& 0xF000 = wordXYN f 0 0 0 := by
  apply BitVec.eq_of_getLsbD_eq; intro i hi
  simp only [wordXYN, BitVec.getLsbD_and, BitVec.getLsbD_append]
  interval_cases i <;> simp [regField]

theorem wordXKK_fixed (f : Nibble) (x : Reg) (kk : Byte) : wordXKK f x kk &&& 0xF0FF = wordXKK f 0 kk := by
  apply BitVec.eq_of_getLsbD_eq; intro i hi
  simp only [wordXKK, BitVec.getLsbD_and, BitVec.getLsbD_append]
  interval_cases i <;> simp [regField]

theorem wordXKK_family (f : Nibble) (x : Reg) (kk : Byte) : wordXKK f x kk &&& 0xF000 = wordXKK f 0 0 := by
  apply BitVec.eq_of_getLsbD_eq; intro i hi
  simp only [wordXKK, BitVec.getLsbD_and, BitVec.getLsbD_append]
  interval_cases i <;> simp [regField]

theorem wordNNN_family (f : Nibble) (nnn : Imm12) : wordNNN f nnn &&& 0xF000 = wordNNN f 0 := by
  apply BitVec.eq_of_getLsbD_eq; intro i hi
  simp only [wordNNN, BitVec.getLsbD_and, BitVec.getLsbD_append]
  interval_cases i <;> simp

namespace Laws.MatchesRow

/-- The row of the instruction selects its word (R73). -/
def Statement (i : Instr) : Prop := encode i &&& i.row.mask = i.row.bits

theorem cls : Statement .cls := rfl
theorem ret : Statement .ret := rfl
theorem jp (nnn : Imm12) : Statement (.jp nnn) := (wordNNN_family _ nnn).trans rfl
theorem call (nnn : Imm12) : Statement (.call nnn) := (wordNNN_family _ nnn).trans rfl
theorem seImm (x : Reg) (kk : Byte) : Statement (.seImm x kk) := (wordXKK_family _ x kk).trans rfl
theorem sneImm (x : Reg) (kk : Byte) : Statement (.sneImm x kk) := (wordXKK_family _ x kk).trans rfl
theorem seReg (x y : Reg) : Statement (.seReg x y) := (wordXYN_fixed _ _ x y).trans rfl
theorem ldImm (x : Reg) (kk : Byte) : Statement (.ldImm x kk) := (wordXKK_family _ x kk).trans rfl
theorem addImm (x : Reg) (kk : Byte) : Statement (.addImm x kk) := (wordXKK_family _ x kk).trans rfl
theorem ldReg (x y : Reg) : Statement (.ldReg x y) := (wordXYN_fixed _ _ x y).trans rfl
theorem orReg (x y : Reg) : Statement (.orReg x y) := (wordXYN_fixed _ _ x y).trans rfl
theorem andReg (x y : Reg) : Statement (.andReg x y) := (wordXYN_fixed _ _ x y).trans rfl
theorem xorReg (x y : Reg) : Statement (.xorReg x y) := (wordXYN_fixed _ _ x y).trans rfl
theorem addReg (x y : Reg) : Statement (.addReg x y) := (wordXYN_fixed _ _ x y).trans rfl
theorem subReg (x y : Reg) : Statement (.subReg x y) := (wordXYN_fixed _ _ x y).trans rfl
theorem shr (x y : Reg) : Statement (.shr x y) := (wordXYN_fixed _ _ x y).trans rfl
theorem subn (x y : Reg) : Statement (.subn x y) := (wordXYN_fixed _ _ x y).trans rfl
theorem shl (x y : Reg) : Statement (.shl x y) := (wordXYN_fixed _ _ x y).trans rfl
theorem sneReg (x y : Reg) : Statement (.sneReg x y) := (wordXYN_fixed _ _ x y).trans rfl
theorem ldI (nnn : Imm12) : Statement (.ldI nnn) := (wordNNN_family _ nnn).trans rfl
theorem jpV0 (nnn : Imm12) : Statement (.jpV0 nnn) := (wordNNN_family _ nnn).trans rfl
theorem rnd (x : Reg) (kk : Byte) : Statement (.rnd x kk) := (wordXKK_family _ x kk).trans rfl
theorem drw (x y : Reg) (n : Nibble) : Statement (.drw x y n) := (wordXYN_family _ n x y).trans rfl
theorem skp (x : Reg) : Statement (.skp x) := (wordXKK_fixed _ x _).trans rfl
theorem sknp (x : Reg) : Statement (.sknp x) := (wordXKK_fixed _ x _).trans rfl
theorem ldVxDt (x : Reg) : Statement (.ldVxDt x) := (wordXKK_fixed _ x _).trans rfl
theorem ldVxK (x : Reg) : Statement (.ldVxK x) := (wordXKK_fixed _ x _).trans rfl
theorem ldDtVx (x : Reg) : Statement (.ldDtVx x) := (wordXKK_fixed _ x _).trans rfl
theorem ldStVx (x : Reg) : Statement (.ldStVx x) := (wordXKK_fixed _ x _).trans rfl
theorem addI (x : Reg) : Statement (.addI x) := (wordXKK_fixed _ x _).trans rfl
theorem ldF (x : Reg) : Statement (.ldF x) := (wordXKK_fixed _ x _).trans rfl
theorem ldB (x : Reg) : Statement (.ldB x) := (wordXKK_fixed _ x _).trans rfl
theorem storeRegs (x : Reg) : Statement (.storeRegs x) := (wordXKK_fixed _ x _).trans rfl
theorem loadRegs (x : Reg) : Statement (.loadRegs x) := (wordXKK_fixed _ x _).trans rfl

end Laws.MatchesRow

end Sys2Proof
end

