-- ==== Sys2Proof/Tests/Slice0.lean ====
section
/-! SUPPORT. Tests: the checks of WellFormed refuse what is ill-formed; words written out from 30_encoding.md decode to
their instructions; one step of each instruction against 95_test_vectors.md (its vector's name stands above each); and
for every obligation with hypotheses a state and operands that meet them (`witness_…`). -/

namespace Sys2Proof.Tests

open Sys2Proof Sys2Proof.Machine

/-! ## A small state -/

/-- The glyph "0" of 93_implementation_defined.md G1 and zeros: an instantiation for tests alone (R8). -/
def font : Vector Byte Config.fontSize :=
  ((((Vector.replicate 80 (0 : Byte)).set 0 0xF0).set 1 0x90).set 2 0x90).set 3 0x90 |>.set 4 0xF0

/-- The reset state with `key` and `rnd` 0 in the next two cycles. -/
def base : State := { State.resetWith font with inputs := [⟨0, 0⟩, ⟨0, 0⟩] }

/-- The next state of an outcome, if it is one. -/
def nextOf : Result → Option State
  | .next t => some t
  | .fault _ => none
  | .refused _ => none

/-- The state after one step that runs the word `w`. -/
def ran (w : Nat) (s : State) : State := (nextOf (step (s.withFetchWord 16 w))).getD s

/-- The fault record: FAULTED, FAULT_CODE, FAULT_PC, FAULT_INSTR. -/
def record (s : State) : Bool × Nat × Nat × Nat :=
  (s.faulted, s.faultCode.toNat, s.faultPc.toNat, s.faultInstr.toNat)

/-- The given registers' values. -/
def regs (s : State) (l : List Reg) : List Nat := l.map (fun r => (s.reg r).toNat)

/-- The columns of set pixels in a row. -/
def row (s : State) (y : Fin 32) : List (Fin 64) := (List.finRange 64).filter (s.fb.pixel y)

/-! ## WellFormed -/

/-- R75: one word of every family that has unknown words. -/
theorem test_wordWellFormed_refuses :
    wordWellFormed 0x00E1 = false ∧ wordWellFormed 0x5121 = false ∧ wordWellFormed 0x8008 = false ∧
    wordWellFormed 0x800F = false ∧ wordWellFormed 0x9121 = false ∧ wordWellFormed 0xE19F = false ∧
    wordWellFormed 0xF01F = false := by decide

theorem test_wordWellFormed_accepts : wordWellFormed 0x00E0 = true ∧ wordWellFormed 0x8FFE = true := by decide

/-- R251, R252: 3584 bytes are the most. -/
theorem test_programWellFormed_accepts : programWellFormed (List.replicate 3584 0x12) = true := by
  rw [programWellFormed, List.length_replicate]; decide

theorem test_programWellFormed_refuses : programWellFormed (List.replicate 3585 0x12) = false := by
  rw [programWellFormed, List.length_replicate]; decide

/-! ## Decoding: every row of R73 once, each word written out from its pattern -/

theorem test_decode_families_0_to_7 :
    decodeWord 0x00E0 = .instr .cls ∧ decodeWord 0x00EE = .instr .ret ∧ decodeWord 0x1ABC = .instr (.jp 0xABC) ∧
    decodeWord 0x2ABC = .instr (.call 0xABC) ∧ decodeWord 0x3A42 = .instr (.seImm 10 0x42) ∧
    decodeWord 0x4A42 = .instr (.sneImm 10 0x42) ∧ decodeWord 0x5120 = .instr (.seReg 1 2) ∧
    decodeWord 0x6A2B = .instr (.ldImm 10 0x2B) ∧ decodeWord 0x7A02 = .instr (.addImm 10 0x02) := by decide

theorem test_decode_family_8 :
    decodeWord 0x8120 = .instr (.ldReg 1 2) ∧ decodeWord 0x8121 = .instr (.orReg 1 2) ∧
    decodeWord 0x8122 = .instr (.andReg 1 2) ∧ decodeWord 0x8123 = .instr (.xorReg 1 2) ∧
    decodeWord 0x8124 = .instr (.addReg 1 2) ∧ decodeWord 0x8125 = .instr (.subReg 1 2) ∧
    decodeWord 0x8126 = .instr (.shr 1 2) ∧ decodeWord 0x8127 = .instr (.subn 1 2) ∧
    decodeWord 0x812E = .instr (.shl 1 2) := by decide

theorem test_decode_families_9_to_E :
    decodeWord 0x9120 = .instr (.sneReg 1 2) ∧ decodeWord 0xA123 = .instr (.ldI 0x123) ∧
    decodeWord 0xB300 = .instr (.jpV0 0x300) ∧ decodeWord 0xC30F = .instr (.rnd 3 0x0F) ∧
    decodeWord 0xD125 = .instr (.drw 1 2 5) ∧ decodeWord 0xE19E = .instr (.skp 1) ∧
    decodeWord 0xE1A1 = .instr (.sknp 1) := by decide

theorem test_decode_family_F :
    decodeWord 0xF307 = .instr (.ldVxDt 3) ∧ decodeWord 0xF30A = .instr (.ldVxK 3) ∧
    decodeWord 0xF215 = .instr (.ldDtVx 2) ∧ decodeWord 0xF218 = .instr (.ldStVx 2) ∧
    decodeWord 0xF21E = .instr (.addI 2) ∧ decodeWord 0xF129 = .instr (.ldF 1) ∧ decodeWord 0xF333 = .instr (.ldB 3) ∧
    decodeWord 0xF355 = .instr (.storeRegs 3) ∧ decodeWord 0xF265 = .instr (.loadRegs 2) := by decide

/-- R54, R70: two bytes, high byte first; the host's table word is the same word. -/
theorem test_decode_bytes :
    decodeBytes [0x8A, 0xB4, 0x12] = .instr (.addReg 10 11) [0x12] ∧
    decodeBytes [0x00, 0x00] = .unknownOpcode 0x0000 [] ∧ decodeBytes [0x12] = .truncated [0x12] ∧
    encodeBytes (.addReg 10 11) = [0x8A, 0xB4] ∧ decodeTableWord 16 0x8AB4 = some (.addReg 10 11) ∧
    decodeTableWord 16 0xF000 = none := by decide

/-! ## Control flow -/

/-- V-CF3. -/
theorem test_ret :
    let t := ran 0x00EE { base with pc := 0x400, sp := 16, stack := (base.stack.set 14 0x222).set 15 0x3AA }
    t.pc = 0x3AA ∧ t.sp = 15 := by decide

/-- V-CF2. -/
theorem test_ret_underflow :
    let t := ran 0x00EE { base with pc := 0x300 }
    record t = (true, 2, 0x300, 0x00EE) ∧ t.pc = 0x300 := by decide

/-- V-CF5. -/
theorem test_jp : let t := ran 0x1200 { base with dt := 5 }; t.pc = 0x200 ∧ t.dt = 4 := by decide

/-- V-CF10. -/
theorem test_call :
    let t := ran 0x2300 { base with pc := 0xFFE }
    t.pc = 0x300 ∧ t.sp = 1 ∧ t.slot 0 = 0x1000 := by decide

/-- V-CF8. -/
theorem test_call_overflow :
    let t := ran 0x2300 { base with pc := 0x280, sp := 16 }
    record t = (true, 1, 0x280, 0x2300) ∧ t.pc = 0x280 ∧ t.sp = 16 := by decide

/-- V-CF11, V-CF12. -/
theorem test_seImm : (ran 0x3A42 (base.setReg 10 0x42)).pc = 0x204 ∧ (ran 0x3A42 (base.setReg 10 0x41)).pc = 0x202 := by
  decide

/-- V-CF13, V-CF14. -/
theorem test_sneImm : (ran 0x4A42 (base.setReg 10 0x41)).pc = 0x204 ∧ (ran 0x4A42 (base.setReg 10 0x42)).pc = 0x202 := by
  decide

/-- V-CF15, V-CF16. -/
theorem test_seReg :
    (ran 0x5120 ((base.setReg 1 7).setReg 2 7)).pc = 0x204 ∧ (ran 0x5120 ((base.setReg 1 7).setReg 2 8)).pc = 0x202 := by
  decide

/-- V-CF18, V-CF19. -/
theorem test_sneReg :
    (ran 0x9120 ((base.setReg 1 7).setReg 2 8)).pc = 0x204 ∧ (ran 0x9120 ((base.setReg 1 7).setReg 2 7)).pc = 0x202 := by
  decide

/-- V-CF21. -/
theorem test_jpV0 : (ran 0xBFFF (base.setReg 0 0xFF)).pc = 0x10FE := by decide

/-! ## ALU -/

/-- V-AL1. -/
theorem test_ldImm : let t := ran 0x6A2B base; t.reg 10 = 0x2B ∧ t.pc = 0x202 := by decide

/-- V-AL3. -/
theorem test_addImm : regs (ran 0x7A02 ((base.setReg 10 0xFF).setReg 15 0x55)) [10, 15] = [0x01, 0x55] := by decide

/-- V-AL5. -/
theorem test_ldReg : regs (ran 0x8120 ((base.setReg 1 0x11).setReg 2 0x22)) [1, 2] = [0x22, 0x22] := by decide

/-- V-AL6. -/
theorem test_orReg :
    regs (ran 0x8121 (((base.setReg 1 0xF0).setReg 2 0x0F).setReg 15 0x77)) [1, 15] = [0xFF, 0x77] := by decide

/-- V-AL7. -/
theorem test_andReg :
    regs (ran 0x8122 (((base.setReg 1 0xF3).setReg 2 0x3F).setReg 15 0x77)) [1, 15] = [0x33, 0x77] := by decide

/-- V-AL8. -/
theorem test_xorReg :
    regs (ran 0x8123 (((base.setReg 1 0xFF).setReg 2 0x0F).setReg 15 0x77)) [1, 15] = [0xF0, 0x77] := by decide

/-- V-AL12, V-AL10. -/
theorem test_addReg :
    regs (ran 0x8124 ((base.setReg 1 0xF0).setReg 2 0x0F)) [1, 15] = [0xFF, 0] ∧
    regs (ran 0x8124 ((base.setReg 1 0xFF).setReg 2 0x01)) [1, 15] = [0, 1] := by decide

/-- V-AL13, V-AL14. -/
theorem test_addReg_flag_operand :
    regs (ran 0x8F14 ((base.setReg 1 0x02).setReg 15 0xFF)) [1, 15] = [0x02, 0x01] ∧
    regs (ran 0x81F4 ((base.setReg 1 0x01).setReg 15 0xFF)) [1, 15] = [0, 1] := by decide

/-- V-AL16, V-AL17. -/
theorem test_subReg :
    regs (ran 0x8125 ((base.setReg 1 0x30).setReg 2 0x30)) [1, 15] = [0, 1] ∧
    regs (ran 0x8125 ((base.setReg 1 0x10).setReg 2 0x30)) [1, 15] = [0xE0, 0] := by decide

/-- V-AL20, V-AL21. -/
theorem test_shr :
    regs (ran 0x8406 (base.setReg 4 0x05)) [4, 15] = [0x02, 1] ∧
    regs (ran 0x8406 ((base.setReg 0 0xFF).setReg 4 0x80)) [4, 15] = [0x40, 0] := by decide

/-- V-AL23, V-AL24. -/
theorem test_subn :
    regs (ran 0x8127 ((base.setReg 1 0x10).setReg 2 0x30)) [1, 15] = [0x20, 1] ∧
    regs (ran 0x8127 ((base.setReg 1 0x30).setReg 2 0x10)) [1, 15] = [0xE0, 0] := by decide

/-- V-AL26, V-AL27. -/
theorem test_shl :
    regs (ran 0x840E (base.setReg 4 0x81)) [4, 15] = [0x02, 1] ∧
    regs (ran 0x840E (base.setReg 4 0x41)) [4, 15] = [0x82, 0] := by decide

/-- V-AL29. -/
theorem test_rnd : (ran 0xC30F { base with inputs := [⟨0, 0xAB⟩] }).reg 3 = 0x0B := by decide

/-! ## Index register and memory -/

/-- V-IM1. -/
theorem test_ldI : (ran 0xA123 { base with i := 0x456 }).i = 0x123 := by decide

/-- V-IM3. -/
theorem test_addI :
    let t := ran 0xF21E { base.setReg 2 0x01 with i := 0xFFF }
    t.i = 0 ∧ t.reg VF = 0 := by decide

/-- V-IM6, V-IM7. -/
theorem test_ldF : (ran 0xF129 (base.setReg 1 0x1A)).i = 0x032 ∧ (ran 0xF129 (base.setReg 1 0xFF)).i = 0x04B := by decide

/-- V-IM8, V-IM10. -/
theorem test_ldB :
    (ran 0xF333 { base.setReg 3 0xEA with i := 0x300 }).mem.readBytes 0x300 3 = [2, 3, 4] ∧
    (ran 0xF333 { base.setReg 3 0xFF with i := 0x300 }).mem.readBytes 0x300 3 = [2, 5, 5] := by decide

/-- V-IM12, V-IM13. -/
theorem test_ldB_bound :
    (ran 0xF333 { base.setReg 3 0x7B with i := 0xFFD }).mem.readBytes 0xFFD 3 = [1, 2, 3] ∧
    record (ran 0xF333 { base.setReg 3 0x7B with i := 0xFFE }) = (true, 4, 0x200, 0xF333) := by decide

/-- V-IM20, on two registers: a store below 0x050 is allowed. -/
theorem test_storeRegs :
    let t := ran 0xF155 ((base.setReg 0 1).setReg 1 2)
    t.mem.readBytes 0 3 = [1, 2, 0x90] ∧ t.i = 0 := by decide

/-- V-IM17. -/
theorem test_storeRegs_bound : record (ran 0xFF55 { base with i := 0xFF1 }) = (true, 4, 0x200, 0xFF55) := by decide

/-- V-IM18, from the glyph bytes. -/
theorem test_loadRegs : regs (ran 0xF265 (base.setReg 3 0x44)) [0, 1, 2, 3] = [0xF0, 0x90, 0x90, 0x44] := by decide

/-! ## Display -/

/-- V-DP1, on one pixel. -/
theorem test_cls : row (ran 0x00E0 { base with fb := base.fb.flip 31 63 }) 31 = [] := by decide

set_option maxRecDepth 4000 in
/-- V-DP2. -/
theorem test_drw :
    let t := ran 0xD015 base
    row t 0 = [0, 1, 2, 3] ∧ row t 1 = [0, 3] ∧ row t 4 = [0, 1, 2, 3] ∧ row t 5 = [] ∧ t.reg VF = 0 := by decide

set_option maxRecDepth 4000 in
/-- V-DP8, with the columns of V-DP4. -/
theorem test_drw_collision :
    let t := ran 0xD011 { (base.setReg 0 0x3E).setReg 15 0x55 with
      i := 0x300, mem := base.mem.write 0x300 0xE0, fb := base.fb.flip 0 63 }
    row t 0 = [0, 62] ∧ t.reg VF = 1 := by decide

/-- V-DP10. -/
theorem test_drw_bound :
    let t := ran 0xD012 { base.setReg 15 0x77 with i := 0xFFF }
    record t = (true, 4, 0x200, 0xD012) ∧ t.reg VF = 0x77 := by decide

/-! ## Timers and input -/

/-- V-TI1, V-TI2. -/
theorem test_skp :
    (ran 0xE19E { base.setReg 1 5 with pc := 0x230, inputs := [⟨0x20, 0⟩] }).pc = 0x234 ∧
    (ran 0xE19E { base.setReg 1 5 with pc := 0x230 }).pc = 0x232 := by decide

/-- V-TI3. -/
theorem test_skp_bound :
    record (ran 0xE19E { base.setReg 1 0x10 with pc := 0x230, inputs := [⟨0xFFFF, 0⟩] }) = (true, 6, 0x230, 0xE19E) := by
  decide

/-- V-TI4, V-TI5. -/
theorem test_sknp :
    (ran 0xE1A1 { base.setReg 1 5 with pc := 0x230 }).pc = 0x234 ∧
    (ran 0xE1A1 { base.setReg 1 5 with pc := 0x230, inputs := [⟨0x20, 0⟩] }).pc = 0x232 := by decide

/-- V-TI6. -/
theorem test_ldVxDt : let t := ran 0xF307 { base with dt := 0x10 }; t.reg 3 = 0x10 ∧ t.dt = 0x0F := by decide

/-- V-TI8, V-TI10. -/
theorem test_ldDtVx : (ran 0xF215 (base.setReg 2 0x3C)).dt = 0x3B ∧ (ran 0xF215 (base.setReg 2 0x01)).dt = 0 := by decide

/-- V-TI11, V-TI12. -/
theorem test_ldStVx :
    (ran 0xF218 (base.setReg 2 5)).outputs.soundActive = true ∧
    (ran 0xF218 (base.setReg 2 1)).outputs.soundActive = false := by decide

/-- V-TI16, V-TI17. -/
theorem test_ldVxK :
    (ran 0xF30A { base with inputs := [⟨0x0208, 0⟩] }).reg 3 = 3 ∧
    (ran 0xF30A { base with keyPrev := 0x0008, inputs := [⟨0x0208, 0⟩] }).reg 3 = 9 := by decide

/-- V-TI13, V-TI15. -/
theorem test_ldVxK_waits :
    (let t := ran 0xF30A { base with dt := 5, st := 3 }
     t.waiting = true ∧ t.pc = 0x200 ∧ t.dt = 5 ∧ t.st = 3) ∧
    (ran 0xF30A { base with keyPrev := 0x80, inputs := [⟨0x80, 0⟩] }).waiting = true := by decide

/-! ## Fetch, reset, load -/

/-- V-EN4, V-EN14, V-EN15. -/
theorem test_fetch_faults :
    record (ran 0x0123 base) = (true, 3, 0x200, 0x0123) ∧ record (ran 0 { base with pc := 0xFFF }) = (true, 5, 0xFFF, 0) ∧
    record (ran 0 { base with pc := 0x1000 }) = (true, 5, 0x1000, 0) := by decide

/-- V-EN16, V-EN17. -/
theorem test_fetch_bounds :
    (let t := ran 0x6AEE { base with pc := 0xFFE }; t.reg 10 = 0xEE ∧ t.pc = 0x1000) ∧
    (ran 0x6A55 { base with pc := 0x301 }).pc = 0x303 := by decide

/-- V-RS4, with the open font: the first step after reset with nothing loaded. -/
theorem test_step_from_reset : (nextOf (step State.reset)).map record = some (true, 3, 0x200, 0) := by decide

/-- V-RS1, V-RS5: reset wins over step. -/
theorem test_reset_wins :
    (nextOf (instant true true { base with pc := 0x300, faulted := true, faultCode := 2, fb := base.fb.flip 0 0 })).map
      (fun t => (t.pc, record t, t.fb.pixel 0 0, t.mem.read 0)) = some (0x200, (false, 0, 0, 0), false, 0xF0) := by decide

/-- V-RS2 and U23, on two bytes. -/
theorem test_load :
    (nextOf (loadProgram [0x12, 0x34] base)).map
      (fun t => (t.mem.readBytes 0x1FF 4, nextOf (loadProgram [0x12] t))) = some ([0, 0x12, 0x34, 0], none) := by decide

/-- V-RS3. -/
theorem test_load_oversized :
    (nextOf (loadProgram (List.replicate 3585 0x12) base)).map (fun t => (record t, t.mem.read 0x200)) =
      some ((true, 7, 0x200, 0), 0) := by
  rw [loadProgram, test_programWellFormed_refuses]; decide

/-! ## Witnesses: the hypotheses of the obligations, clause by clause, at the ends of their ranges -/

theorem witness_DecodedWordIsItsEncoding : ∃ i, decodeWord 0x8FFE = .instr i := ⟨.shl 15 15, by decide⟩

theorem witness_WordSelectsAtMostOneRow :
    (∃ r ∈ opcodeRows, (0xFF65 : Word) &&& r.mask = r.bits) ∧ ∃ i, decodeWord 0xFF65 = .instr i :=
  ⟨⟨(Instr.loadRegs 0).row, by decide, by decide⟩, ⟨.loadRegs 15, by decide⟩⟩

/-- The last word of memory holds an instruction. -/
theorem witness_StepExecutesTheDecodedInstruction :
    let s := { base with pc := 0xFFE }.placeWord 0x1234
    s.faulted = false ∧ s.pc.toNat ≤ 0xFFE ∧
    decodeBytes [s.mem.read s.pc.toNat, s.mem.read (s.pc.toNat + 1)] = .instr (.jp 0x234) [] ∧
    ∃ t, exec (.jp 0x234) s = .next t := ⟨by decide, by decide, by decide, _, rfl⟩

theorem witness_FetchIsBigEndianAndBounded :
    ({ base with pc := 0xFFE } : State).pc.toNat ≤ 0xFFE ∧
    ({ base with pc := 0xFFF } : State).faulted = false ∧ 0xFFE < ({ base with pc := 0xFFF } : State).pc.toNat := by decide

theorem witness_UnknownWordFaults :
    let s : State := { base with pc := 0xFFE }
    s.faulted = false ∧ s.pc.toNat ≤ 0xFFE ∧
    (0 : Word).toNat = (s.mem.read s.pc.toNat).toNat * 256 + (s.mem.read (s.pc.toNat + 1)).toNat ∧
    ∀ r ∈ opcodeRows, (0 : Word) &&& r.mask ≠ r.bits := by decide

theorem witness_FaultedCoreStandsStill : ({ base with faulted := true } : State).faulted = true := rfl

theorem witness_CycleFaultsExactlyByTheTable :
    base.faulted = false ∧ faultOf base = some .unknownOpcode ∧ faultOf (base.placeWord 0x00E0) = none := by decide

theorem witness_FaultCommitsOnlyTheRecord : ∃ t, base.faulted = false ∧ step base = .next t ∧ t.faulted = true :=
  ⟨_, rfl, rfl, by decide⟩

/-- A committed cycle that is no wait, and one that is; both set-timer instructions. -/
theorem witness_TimersTickOncePerCommittedCycle :
    base.faulted = false ∧ (∃ t, exec (.ldDtVx 0) base = .next t ∧ t.faulted = false ∧ t.waiting = false) ∧
    (∃ t, exec (.ldStVx 0) base = .next t ∧ t.faulted = false ∧ t.waiting = false) ∧
    ∃ t, exec (.ldVxK 0) base = .next t ∧ t.faulted = false ∧ t.waiting = true :=
  ⟨rfl, ⟨_, rfl, rfl, rfl⟩, ⟨_, rfl, rfl, rfl⟩, _, rfl, by decide, by decide⟩

theorem witness_CommittedCycleKeepsTheKeySnapshot :
    ∃ t, base.faulted = false ∧ exec (.ldVxK 0) base = .next t ∧ t.faulted = false := ⟨_, rfl, rfl, by decide⟩

theorem witness_UnlistedRegisterIsNeitherReadNorWritten :
    (∃ t, exec (.shr 1 2) base = .next t ∧ 2 ∉ writesOf (.shr 1 2)) ∧
    ∃ t t', exec (.shr 1 2) base = .next t ∧ exec (.shr 1 2) (base.setReg 2 0xFF) = .next t' ∧ 2 ∉ readsOf (.shr 1 2) :=
  ⟨⟨_, rfl, by decide⟩, _, _, rfl, rfl, by decide⟩

theorem witness_IndexIsWrittenByThreeInstructions : ∃ t, exec (.addI 0) { base with i := 0xFFF } = .next t := ⟨_, rfl⟩

theorem witness_StackIsTouchedOnlyByCallAndRet :
    (∃ t, exec (.call 0) { base with sp := 15 } = .next t) ∧ ∃ t, exec .ret { base with sp := 1 } = .next t :=
  ⟨⟨_, rfl⟩, _, rfl⟩

theorem witness_MemoryIsWrittenOnlyByStores : ∃ t, exec (.ldF 0) base = .next t := ⟨_, rfl⟩

theorem witness_FramebufferIsWrittenOnlyByClsAndDrw : ∃ t, exec (.ldF 0) base = .next t := ⟨_, rfl⟩

theorem witness_RetPopsIntoPc :
    ({ base with sp := 1 } : State).sp.val = (0 : Fin 16).val + 1 ∧
    ({ base with sp := 16 } : State).sp.val = (15 : Fin 16).val + 1 ∧ base.sp.val = 0 := by decide

theorem witness_JpSetsPc : (0x1FFF : Word) &&& 0xF000 = 0x1000 := by decide

theorem witness_CallPushesReturnAddress :
    (0x2FFF : Word) &&& 0xF000 = 0x2000 ∧ base.sp.val = (0 : Fin 16).val ∧
    ({ base with sp := 15 } : State).sp.val = (15 : Fin 16).val ∧ ({ base with sp := 16 } : State).sp.val = 16 := by decide

theorem witness_CallThenRetReturnsAfterTheCall :
    ∃ t u, ({ base with sp := 15 } : State).sp.val < 16 ∧ exec (.call 0x300) { base with sp := 15 } = .next t ∧
      exec .ret t = .next u := ⟨_, _, by decide, rfl, rfl⟩

theorem witness_SkipOnImmediate :
    (0x3FFF : Word) &&& 0xF000 = 0x3000 ∧ (0x4FFF : Word) &&& 0xF000 = 0x4000 := by decide

theorem witness_SkipOnRegister :
    (0x5FF0 : Word) &&& 0xF00F = 0x5000 ∧ (0x9FF0 : Word) &&& 0xF00F = 0x9000 := by decide

theorem witness_JpV0AddsV0 : (0xBFFF : Word) &&& 0xF000 = 0xB000 := by decide

theorem witness_LoadsWriteTheirRegister :
    (0x6FFF : Word) &&& 0xF000 = 0x6000 ∧ (0x8FF0 : Word) &&& 0xF00F = 0x8000 ∧ (0xCFFF : Word) &&& 0xF000 = 0xC000 := by
  decide

theorem witness_AddImmediateWrapsWithoutFlag : (0x7FFF : Word) &&& 0xF000 = 0x7000 := by decide

theorem witness_BitwiseOperationsLeaveTheFlag :
    (0x8FF1 : Word) &&& 0xF00F = 0x8001 ∧ (0x8FF2 : Word) &&& 0xF00F = 0x8002 ∧ (0x8FF3 : Word) &&& 0xF00F = 0x8003 := by
  decide

theorem witness_AddSetsCarry : (0x8FF4 : Word) &&& 0xF00F = 0x8004 ∧ (14 : Reg) ≠ VF := by decide

theorem witness_SubSetsNotBorrow : (0x8FF5 : Word) &&& 0xF00F = 0x8005 ∧ (14 : Reg) ≠ VF := by decide

theorem witness_SubnSetsNotBorrow : (0x8FF7 : Word) &&& 0xF00F = 0x8007 ∧ (14 : Reg) ≠ VF := by decide

theorem witness_ShrShiftsOutBitZero : (0x8FF6 : Word) &&& 0xF00F = 0x8006 ∧ (14 : Reg) ≠ VF := by decide

theorem witness_ShlShiftsOutBitSeven : (0x8FFE : Word) &&& 0xF00F = 0x800E ∧ (14 : Reg) ≠ VF := by decide

theorem witness_AliasedFlagOperations :
    (14 : Reg) ≠ VF ∧ (∃ t, exec (.addReg VF VF) base = .next t) ∧ (∃ t, exec (.subReg VF VF) base = .next t) ∧
    (∃ t, exec (.shr VF VF) base = .next t) ∧ (∃ t, exec (.subn VF VF) base = .next t) ∧
    (∃ t, exec (.shl VF VF) base = .next t) ∧ (∃ t, exec (.addReg 14 VF) base = .next t) ∧
    (∃ t, exec (.subReg 14 VF) base = .next t) ∧ (∃ t, exec (.subn 14 VF) base = .next t) ∧
    (∃ t, exec (.addReg 14 14) base = .next t) ∧ (∃ t, exec (.subReg 14 14) base = .next t) ∧
    (∃ t, exec (.subn 14 14) base = .next t) ∧ (∃ t, exec (.shr 14 0) base = .next t) ∧
    ∃ t, exec (.shl 14 0) base = .next t :=
  ⟨by decide, ⟨_, rfl⟩, ⟨_, rfl⟩, ⟨_, rfl⟩, ⟨_, rfl⟩, ⟨_, rfl⟩, ⟨_, rfl⟩, ⟨_, rfl⟩, ⟨_, rfl⟩, ⟨_, rfl⟩, ⟨_, rfl⟩, ⟨_, rfl⟩,
    ⟨_, rfl⟩, _, rfl⟩

theorem witness_IndexInstructionsWriteIndex :
    (0xAFFF : Word) &&& 0xF000 = 0xA000 ∧ (0xFF1E : Word) &&& 0xF0FF = 0xF01E ∧ (0xFF29 : Word) &&& 0xF0FF = 0xF029 := by
  decide

theorem witness_BcdStoresThreeDigits :
    (0xFF33 : Word) &&& 0xF0FF = 0xF033 ∧ ({ base with i := 0xFFD } : State).i.toNat + 2 ≤ 0xFFF ∧
    0xFFF < ({ base with i := 0xFFE } : State).i.toNat + 2 := by decide

theorem witness_StoreRegsStoresFromV0 :
    (0xFF55 : Word) &&& 0xF0FF = 0xF055 ∧ ({ base with i := 0xFF0 } : State).i.toNat + (15 : Reg).val ≤ 0xFFF ∧
    ({ base with i := 0xFFF } : State).i.toNat + (0 : Reg).val ≤ 0xFFF ∧
    0xFFF < ({ base with i := 0xFF1 } : State).i.toNat + (15 : Reg).val := by decide

theorem witness_LoadRegsLoadsFromV0 :
    (0xFF65 : Word) &&& 0xF0FF = 0xF065 ∧ ({ base with i := 0xFF0 } : State).i.toNat + (15 : Reg).val ≤ 0xFFF ∧
    (0 : Reg) < 15 ∧ 0xFFF < ({ base with i := 0xFF1 } : State).i.toNat + (15 : Reg).val := by decide

/-- The register is changed between the store and the load. -/
theorem witness_StoreThenLoadRestoresRegisters :
    let s : State := { base.setReg 1 0x22 with i := 0xFFE }
    ∃ t u w, s.i.toNat + (1 : Reg).val ≤ 0xFFF ∧ exec (.storeRegs 1) s = .next t ∧ u.mem = t.mem ∧ u.i = t.i ∧
      u.reg 1 = 0 ∧ exec (.loadRegs 1) u = .next w :=
  ⟨_, State.setReg _ 1 0, _, by decide, rfl, rfl, rfl, by decide, rfl⟩

theorem witness_ReadAfterWriteReturnsTheByte : (0xFFF : Nat) ≤ 0xFFF ∧ (0xFFE : Nat) ≠ 0xFFF := by decide

/-- A store of V0 and V1 over the next word. -/
theorem witness_StoreIsSeenByTheNextFetch :
    let s : State := { base with i := 0x202 }
    ∃ t, s.i.toNat + (1 : Reg).val ≤ 0xFFF ∧ exec (.storeRegs 1) s = .next t ∧ (0 : Reg) ≤ 1 ∧ (1 : Reg) ≤ 1 ∧
      (1 : Reg).val = (0 : Reg).val + 1 ∧ t.pc.toNat = s.i.toNat + (0 : Reg).val :=
  ⟨_, by decide, rfl, by decide, by decide, rfl, by decide⟩

/-- No row; the last row at 0xFFF; a pixel a lit bit lands on and one none lands on; the first address too many. -/
theorem witness_DrwXorsTheSprite :
    (0xDFFF : Word) &&& 0xF000 = 0xD000 ∧ (0 : Nibble).toNat = 0 ∧
    ({ base with i := 0xFFF } : State).i.toNat + (1 : Nibble).toNat - 1 ≤ 0xFFF ∧
    LandsOn base 0 0 5 4 3 ∧ base.fb.pixel 4 3 = false ∧ ({ base with fb := base.fb.flip 4 3 } : State).fb.pixel 4 3 = true ∧
    0 < (2 : Nibble).toNat ∧ 0xFFF < ({ base with i := 0xFFF } : State).i.toNat + (2 : Nibble).toNat - 1 :=
  ⟨by decide, rfl, by decide, ⟨4, 3, by decide, by decide, by decide, by decide, by decide⟩, by decide, by decide,
    by decide, by decide⟩

/-- The origin column in VF, which the first draw writes and the next state has back. -/
theorem witness_DrawingTwiceRestoresTheFramebuffer :
    let s := base.setReg 15 3
    ∃ t u, ((5 : Nibble).toNat = 0 ∨ s.i.toNat + (5 : Nibble).toNat - 1 ≤ 0xFFF) ∧
      exec (.drw 15 1 5) s = .next t ∧ (t.setReg 15 3).fb = t.fb ∧ (t.setReg 15 3).mem = t.mem ∧
      (t.setReg 15 3).i = t.i ∧ (t.setReg 15 3).reg 15 = s.reg 15 ∧ (t.setReg 15 3).reg 1 = s.reg 1 ∧
      exec (.drw 15 1 5) (t.setReg 15 3) = .next u :=
  ⟨_, _, by decide, rfl, rfl, rfl, rfl, rfl, rfl, rfl⟩

theorem witness_ClsClearsEveryPixel : ∃ w : Word, w = 0x00E0 := ⟨_, rfl⟩

theorem witness_SkipOnKey :
    (0xEF9E : Word) &&& 0xF0FF = 0xE09E ∧ (0xEFA1 : Word) &&& 0xF0FF = 0xE0A1 ∧
    ((base.setReg 0 0xF).reg 0).toNat ≤ 0xF ∧ 0xF < ((base.setReg 0 0x10).reg 0).toNat := by
  decide

theorem witness_ReadDelayTimerBeforeTheTick : (0xFF07 : Word) &&& 0xF0FF = 0xF007 := by decide

theorem witness_SetTimerThenTick :
    (0xFF15 : Word) &&& 0xF0FF = 0xF015 ∧ (0xFF18 : Word) &&& 0xF0FF = 0xF018 := by decide

/-- Key 15 alone, just pressed; keys 3 held and 9 new; a held key and no other. -/
theorem witness_KeyWaitTakesTheLowestPressEdge :
    (0xFF0A : Word) &&& 0xF0FF = 0xF00A ∧
    (let s : State := { base with keyPrev := 0x0008, inputs := [⟨0x0208, 0⟩] }
     s.key.getLsbD (9 : Fin 16).val = true ∧ s.keyPrev.getLsbD (9 : Fin 16).val = false ∧
     ∀ j : Fin 16, j < 9 → s.key.getLsbD j.val = true → s.keyPrev.getLsbD j.val = true) ∧
    (let s : State := { base with inputs := [⟨0x8000, 0⟩] }
     s.key.getLsbD (15 : Fin 16).val = true ∧ s.keyPrev.getLsbD (15 : Fin 16).val = false ∧
     ∀ j : Fin 16, j < 15 → s.key.getLsbD j.val = true → s.keyPrev.getLsbD j.val = true) ∧
    (let s : State := { base with keyPrev := 0x0080, inputs := [⟨0x0080, 0⟩] }
     ∀ k : Fin 16, s.key.getLsbD k.val = true → s.keyPrev.getLsbD k.val = true) := by decide

/-- A waiting CORE at an FX0A, with the keys of the coming cycle. -/
def waiting (key : Word) : State :=
  { base.placeWord 0xF30A with waiting := true, keyPrev := 0x0080, inputs := [⟨key, 0⟩], loadOpen := false }

theorem waiting_inv (key : Word) : CoreInv (waiting key) where
  memory := by simp only [waiting]; decide
  index := by simp only [waiting]; decide
  pc := by simp only [waiting]; decide
  slots := by show ∀ j, ((base.placeWord 0xF30A).slot j).toNat ≤ 0x1000; decide
  running := fun _ => ⟨rfl, rfl, rfl⟩
  stopped := fun h => nomatch h
  window := fun h => nomatch h
  waits := fun _ => ⟨0xF30A, 3, by show fetch (base.placeWord 0xF30A) = _; decide, by decide⟩

theorem witness_WaitingCoreChangesOnlyTheKeySnapshot :
    CoreInv (waiting 0x0080) ∧ (waiting 0x0080).faulted = false ∧ (waiting 0x0080).waiting = true ∧
    (∀ k : Fin 16, (waiting 0x0080).key.getLsbD k.val = true → (waiting 0x0080).keyPrev.getLsbD k.val = true) ∧
    CoreInv (waiting 0x8000) ∧
    ∃ k : Fin 16, (waiting 0x8000).key.getLsbD k.val = true ∧ (waiting 0x8000).keyPrev.getLsbD k.val = false :=
  ⟨waiting_inv _, rfl, rfl, by decide, waiting_inv _, 15, by decide, by decide⟩

/-- A jump to itself, for one cycle. -/
theorem witness_DelayTimerCountsCycles :
    let s : State := { base.placeWord 0x1200 with dt := 5 }
    ∃ t : State, Sys2Proof.core.run 1 s = .next t ∧
    (∀ j (u : State), j < 1 → Sys2Proof.core.run j s = .next u → ∀ x, frontEnd u ≠ .run (.ldDtVx x)) ∧
    (∀ j (u : State), j ≤ 1 → Sys2Proof.core.run j s = .next u → u.faulted = false) ∧
    (∀ j (u : State), 0 < j → j ≤ 1 → Sys2Proof.core.run j s = .next u → u.waiting = false) := by
  refine ⟨_, rfl, ?_, ?_, ?_⟩
  · intro j u hj hu x
    obtain rfl : j = 0 := by omega
    cases hu
    rw [show frontEnd { base.placeWord 0x1200 with dt := 5 } = .run (.jp 0x200) by decide]
    simp
  · intro j u hj hu
    obtain rfl | rfl : j = 0 ∨ j = 1 := by omega
    all_goals (cases hu; rfl)
  · intro j u h0 hj hu
    obtain rfl : j = 1 := by omega
    cases hu; rfl

theorem witness_ResetLeavesTheListedValues : (79 : Nat) < 80 ∧ 80 ≤ (80 : Nat) := by decide

theorem witness_ResetInputRestoresEveryState : (79 : Nat) < 80 ∧ 80 ≤ (80 : Nat) := by decide

theorem witness_LoadCopiesTheProgram :
    base.loadOpen = true ∧ (List.replicate 3584 (0x12 : Byte)).length ≤ 3584 ∧
    3583 < (List.replicate 3584 (0x12 : Byte)).length := by
  rw [List.length_replicate]; decide

theorem witness_LoadCopiesTheProgram_closed :
    (∃ t, loadProgram [0x12] base = .next t) ∧ ∃ t, base.faulted = false ∧ step base = .next t :=
  ⟨⟨_, rfl⟩, _, rfl, rfl⟩

theorem witness_OversizedLoadStopsTheCore :
    base.loadOpen = true ∧ 3584 < (List.replicate 3585 (0x12 : Byte)).length := by
  rw [List.length_replicate]; decide

theorem base_inv : CoreInv base where
  memory := by decide
  index := by decide
  pc := by decide
  slots := by decide
  running := fun _ => ⟨rfl, rfl, rfl⟩
  stopped := fun h => nomatch h
  window := fun _ => ⟨rfl, rfl⟩
  waits := fun h => nomatch h

/-- Of a running and of a waiting CORE. -/
theorem witness_StepKeepsTheInvariant :
    (∃ t, CoreInv base ∧ step base = .next t) ∧ ∃ t, CoreInv (waiting 0x8000) ∧ step (waiting 0x8000) = .next t :=
  ⟨⟨_, base_inv, rfl⟩, _, waiting_inv _, rfl⟩

theorem witness_LoadAndResetKeepTheInvariant :
    (∃ t, CoreInv base ∧ loadProgram [0x12] base = .next t) ∧
    ∃ t, CoreInv base ∧ loadProgram (List.replicate 3585 0x12) base = .next t :=
  ⟨⟨_, base_inv, rfl⟩, _, base_inv, by rw [loadProgram, test_programWellFormed_refuses]; rfl⟩

theorem witness_CycleReadsTheOldestQueuedSample :
    base.inputs = ⟨0, 0⟩ :: [⟨0, 0⟩] ∧ base.faulted = false := by decide

end Sys2Proof.Tests
end

section
/-! SUPPORT. The family 10_state.md: what each instruction may write (`WritesOnly`), that no instruction reads a
register the table of R22 does not list (`exec_setReg_unread`), the invariant over a step, and reset. -/

namespace Sys2Proof.Machine

/-! ## What an instruction writes -/

/-- All that executing `i` may stage: `u` differs from `s` in the registers of the table of R22, in I for the three
index instructions (R26), in the stack for 2NNN and 00EE (R28), in the framebuffer for 00E0 and DXYN (R30), in memory
for FX33 and FX55 (R50), in a timer for FX15 and FX18 (R29). -/
structure WritesOnly (i : Instr) (s u : State) : Prop where
  regs : ∀ r, r ∉ writesOf i → u.reg r = s.reg r
  index : u.i = s.i ∨ ((∃ nnn, i = .ldI nnn) ∨ (∃ x, i = .addI x) ∨ (∃ x, i = .ldF x)) ∧ u.i.toNat ≤ 0xFFF
  stack : SameStack s u ∨
    (∃ nnn, i = .call nnn) ∧ u.sp.val = s.sp.val + 1 ∧ (∀ j : Fin 16, j.val ≠ s.sp.val → u.slot j = s.slot j) ∨
    i = .ret ∧ u.sp.val + 1 = s.sp.val ∧ ∀ j, u.slot j = s.slot j
  pixels : i ≠ .cls → (∀ x y n, i ≠ .drw x y n) → u.fb = s.fb
  memory : (∀ x, i ≠ .ldB x) → (∀ x, i ≠ .storeRegs x) → u.mem = s.mem
  dt : (∀ x, i ≠ .ldDtVx x) → u.dt = s.dt
  st : (∀ x, i ≠ .ldStVx x) → u.st = s.st

@[simp] theorem mem_regsTo {x r : Reg} : r ∈ regsTo x ↔ r ≤ x := by simp [regsTo]

theorem WritesOnly.refl (i : Instr) (s : State) : WritesOnly i s s :=
  ⟨fun _ _ => rfl, .inl rfl, .inl ⟨rfl, fun _ => rfl⟩, fun _ _ => rfl, fun _ _ => rfl, fun _ => rfl, fun _ => rfl⟩

theorem WritesOnly.setReg {i : Instr} (s : State) {x : Reg} (b : Byte) (hx : x ∈ writesOf i) :
    WritesOnly i s (s.setReg x b) :=
  { WritesOnly.refl i s with regs := fun r hr => State.reg_setReg_ne s x r b (fun h => hr (h ▸ hx)) }

theorem WritesOnly.setFlagThenReg {i : Instr} (s : State) (f : Bool) {x : Reg} (b : Byte) (hi : writesOf i = [VF, x]) :
    WritesOnly i s (s.setFlagThenReg f x b) :=
  { WritesOnly.refl i s with
    regs := fun r hr => by
      obtain ⟨hf, hx⟩ : r ≠ VF ∧ r ≠ x := by simpa [hi] using hr
      simp [State.reg_setFlagThenReg, hf, hx] }

theorem WritesOnly.setIndex {i : Instr} (s : State) {w : Word} (hw : w.toNat ≤ 0xFFF)
    (hi : (∃ nnn, i = .ldI nnn) ∨ (∃ x, i = .addI x) ∨ ∃ x, i = .ldF x) : WritesOnly i s { s with i := w } :=
  { WritesOnly.refl i s with index := .inr ⟨hi, hw⟩ }

theorem WritesOnly.setMemory {i : Instr} (s : State) (m : Memory) (hi : (∃ x, i = .ldB x) ∨ ∃ x, i = .storeRegs x) :
    WritesOnly i s { s with mem := m } :=
  { WritesOnly.refl i s with memory := fun hb hs => (hi.elim (fun ⟨x, h⟩ => hb x h) (fun ⟨x, h⟩ => hs x h)).elim }

theorem WritesOnly.push (nnn : Imm12) {s u : State} {w : Word} (h : s.push? w = some u) :
    WritesOnly (.call nnn) s u := by
  unfold State.push? at h
  split at h
  · cases h
    refine { WritesOnly.refl _ s with stack := .inr (.inl ⟨⟨nnn, rfl⟩, rfl, fun j hj => ?_⟩) }
    exact Vector.getElem_set_ne ‹_› j.isLt (Ne.symm hj)
  · cases h

theorem WritesOnly.pop {s u : State} {w : Word} (h : s.pop? = some (w, u)) : WritesOnly .ret s u := by
  unfold State.pop? at h
  split at h
  · cases h
    exact { WritesOnly.refl _ s with stack := .inr (.inr ⟨rfl, Nat.sub_add_cancel ‹_›, fun _ => rfl⟩) }
  · cases h

theorem WritesOnly.loadRegs (s : State) (x : Reg) (bs : List Byte) (hl : bs.length = x.val + 1) :
    WritesOnly (.loadRegs x) s { s with v := setRegsFrom s.v 0 bs } :=
  { WritesOnly.refl _ s with
    regs := fun r hr => by
      have hx : x.val < r.val := not_le.1 fun h => hr (mem_regsTo.2 h)
      have hd : bs.getD r.val s.v[r.val] = s.v[r.val] := by rw [List.getD_eq_default]; omega
      simpa [State.reg, getElem_setRegsFrom] using hd }

/-- The answer is a fault of `i`, or commits a staged state that differs from `s` only in what `i` may write. -/
inductive FaultsOrWrites (i : Instr) (s : State) : Result → Prop where
  | fault (c : Cause) : FaultsOrWrites i s (.next (takeFault c (encode i) s))
  | commit (k : PcClass) {u : State} (h : WritesOnly i s u) : FaultsOrWrites i s (.next (commit k u))

theorem storeAtIndex_writesOnly {i : Instr} (hi : (∃ x, i = .ldB x) ∨ ∃ x, i = .storeRegs x) (bytes : List Byte)
    (s : State) : FaultsOrWrites i s (storeAtIndex i bytes s) := by
  unfold storeAtIndex
  split
  · exact .fault _
  · exact .commit _ (.setMemory s _ hi)

theorem skipOnKey_writesOnly (i : Instr) (x : Reg) (want : Bool) (s : State) :
    FaultsOrWrites i s (skipOnKey i x want s) := by
  unfold skipOnKey
  split
  · exact .fault _
  · exact .commit _ (.refl i s)

/-- `exec_cases` says what every instruction keeps; here, instruction by instruction, what it may write. -/
theorem exec_writesOnly (i : Instr) (s : State) : FaultsOrWrites i s (exec i s) := by
  cases i with
  | cls => exact .commit _ { WritesOnly.refl _ s with pixels := fun h => absurd rfl h }
  | ret =>
    simp only [exec, execRet]
    cases h : s.pop? with
    | none => exact .fault _
    | some p => exact .commit _ (.pop h)
  | jp nnn => exact .commit _ (.refl _ s)
  | call nnn =>
    simp only [exec, execCall]
    cases h : s.push? (s.pc + 2) with
    | none => exact .fault _
    | some u => exact .commit _ (.push nnn h)
  | seImm x kk => exact .commit _ (.refl _ s)
  | sneImm x kk => exact .commit _ (.refl _ s)
  | seReg x y => exact .commit _ (.refl _ s)
  | ldImm x kk => exact .commit _ (.setReg s _ (.head _))
  | addImm x kk => exact .commit _ (.setReg s _ (.head _))
  | ldReg x y => exact .commit _ (.setReg s _ (.head _))
  | orReg x y => exact .commit _ (.setReg s _ (.head _))
  | andReg x y => exact .commit _ (.setReg s _ (.head _))
  | xorReg x y => exact .commit _ (.setReg s _ (.head _))
  | addReg x y => exact .commit _ (.setFlagThenReg s _ _ rfl)
  | subReg x y => exact .commit _ (.setFlagThenReg s _ _ rfl)
  | shr x y => exact .commit _ (.setFlagThenReg s _ _ rfl)
  | subn x y => exact .commit _ (.setFlagThenReg s _ _ rfl)
  | shl x y => exact .commit _ (.setFlagThenReg s _ _ rfl)
  | sneReg x y => exact .commit _ (.refl _ s)
  | ldI nnn => exact .commit _ (.setIndex s (by have := nnn.isLt; rw [zextImm_toNat]; omega) (.inl ⟨nnn, rfl⟩))
  | jpV0 nnn => exact .commit _ (.refl _ s)
  | rnd x kk => exact .commit _ (.setReg s _ (.head _))
  | drw x y n =>
    simp only [exec, execDrw]
    cases s.mem.load? s.indexAddr n.toNat with
    | none => exact .fault _
    | some bytes => exact .commit _ { WritesOnly.setReg s _ (.head _) with pixels := fun _ h => absurd rfl (h x y n) }
  | skp x => exact skipOnKey_writesOnly _ x true s
  | sknp x => exact skipOnKey_writesOnly _ x false s
  | ldVxDt x => exact .commit _ (.setReg s _ (.head _))
  | ldVxK x =>
    simp only [exec, execLdVxK]
    cases s.lowestEdge with
    | none => exact .commit _ (.refl _ s)
    | some k => exact .commit _ (.setReg s _ (.head _))
  | ldDtVx x => exact .commit _ { WritesOnly.refl _ s with dt := fun h => absurd rfl (h x) }
  | ldStVx x => exact .commit _ { WritesOnly.refl _ s with st := fun h => absurd rfl (h x) }
  | addI x => exact .commit _ (.setIndex s (by rw [indexPlus_toNat]; omega) (.inr (.inl ⟨x, rfl⟩)))
  | ldF x => exact .commit _ (.setIndex s (by rw [glyphAddr_toNat]; omega) (.inr (.inr ⟨x, rfl⟩)))
  | ldB x => exact storeAtIndex_writesOnly (.inl ⟨x, rfl⟩) _ s
  | storeRegs x => exact storeAtIndex_writesOnly (.inr ⟨x, rfl⟩) _ s
  | loadRegs x =>
    simp only [exec, execLoadRegs, Memory.load?_eq]
    by_cases h : x.val + 1 = 0 ∨ s.indexAddr + (x.val + 1) ≤ 0x1000
    · rw [if_pos h]; exact .commit _ (.loadRegs s x _ (Memory.length_readBytes ..))
    · rw [if_neg h]; exact .fault _

/-- `exec_writesOnly`, read from the next state. -/
theorem exec_next_cases {i : Instr} {s t : State} (h : exec i s = .next t) :
    (∃ c, t = takeFault c (encode i) s) ∨ ∃ k u, t = commit k u ∧ WritesOnly i s u := by
  have hw := exec_writesOnly i s
  rw [h] at hw
  cases hw with
  | fault c => exact .inl ⟨c, rfl⟩
  | commit k hu => exact .inr ⟨k, _, rfl, hu⟩

theorem exec_reg_unwritten {i : Instr} {s t : State} {r : Reg} (h : exec i s = .next t) (hr : r ∉ writesOf i) :
    t.reg r = s.reg r := by
  obtain ⟨c, rfl⟩ | ⟨k, u, rfl, hu⟩ := exec_next_cases h
  · exact State.reg_takeFault ..
  · rw [State.reg_commit, hu.regs r hr]

/-- Settles O15, by what each instruction may write. -/
theorem indexIsWrittenByThreeInstructions : Obligations.IndexIsWrittenByThreeInstructions := by
  intro i s t h
  obtain ⟨c, rfl⟩ | ⟨k, u, rfl, hu⟩ := exec_next_cases h
  · exact .inl (takeFault_i ..)
  · simpa only [commit_i] using hu.index

/-- Settles O16, by what each instruction may write. -/
theorem stackIsTouchedOnlyByCallAndRet : Obligations.StackIsTouchedOnlyByCallAndRet := by
  intro i s t h
  obtain ⟨c, rfl⟩ | ⟨k, u, rfl, hu⟩ := exec_next_cases h
  · exact .inl ⟨takeFault_sp .., fun j => State.slot_takeFault ..⟩
  · simpa only [SameStack, commit_sp, State.slot_commit] using hu.stack

/-- Settles O18, by what each instruction may write. -/
theorem framebufferIsWrittenOnlyByClsAndDrw : Obligations.FramebufferIsWrittenOnlyByClsAndDrw := by
  intro i s t h hcls hdrw
  obtain ⟨c, rfl⟩ | ⟨k, u, rfl, hu⟩ := exec_next_cases h
  · exact fun y x => by rw [takeFault_fb]
  · exact fun y x => by rw [commit_fb, hu.pixels hcls hdrw]

/-! ## What an instruction reads -/

/-- The two states differ at most in the register `r`. -/
def AgreeBut (r : Reg) (s s' : State) : Prop := s'.setReg r 0 = s.setReg r 0

theorem State.setReg_setReg_self (s : State) (r : Reg) (a b : Byte) : (s.setReg r a).setReg r b = s.setReg r b := by
  simp [State.setReg]

theorem State.setReg_comm (s : State) {r q : Reg} (h : r ≠ q) (a b : Byte) :
    (s.setReg r a).setReg q b = (s.setReg q b).setReg r a := by
  simp only [State.setReg, Vector.set_comm _ _ (fun e => h (Fin.ext e))]

theorem agreeBut_setReg (s : State) (r : Reg) (b : Byte) : AgreeBut r s (s.setReg r b) := s.setReg_setReg_self r b 0

/-- An operation that neither reads nor writes a register keeps the agreement. -/
theorem AgreeBut.map {r : Reg} {s s' : State} (f : State → State) (hf : ∀ u, (f u).setReg r 0 = f (u.setReg r 0))
    (h : AgreeBut r s s') : AgreeBut r (f s) (f s') := by
  unfold AgreeBut at h ⊢
  rw [hf, hf, h]

theorem AgreeBut.setReg {r : Reg} {s s' : State} (x : Reg) (b : Byte) (h : AgreeBut r s s') :
    AgreeBut r (s.setReg x b) (s'.setReg x b) := by
  by_cases hx : x = r
  · subst hx; simpa only [AgreeBut, State.setReg_setReg_self] using h
  · exact h.map (·.setReg x b) fun u => u.setReg_comm hx b 0

theorem AgreeBut.setFlagThenReg {r : Reg} {s s' : State} (f : Bool) (x : Reg) (b : Byte) (h : AgreeBut r s s') :
    AgreeBut r (s.setFlagThenReg f x b) (s'.setFlagThenReg f x b) := (h.setReg VF _).setReg x b

theorem AgreeBut.commit {r : Reg} {s s' : State} (k : PcClass) (h : AgreeBut r s s') :
    AgreeBut r (commit k s) (commit k s') := h.map (Machine.commit k) fun _ => by cases k <;> rfl

theorem AgreeBut.takeFault {r : Reg} {s s' : State} (c : Cause) (w : Word) (h : AgreeBut r s s') :
    AgreeBut r (takeFault c w s) (takeFault c w s') := h.map (Machine.takeFault c w) fun _ => rfl

theorem agreeBut_setRegsFrom (s : State) (r : Reg) (b : Byte) (bs : List Byte) :
    AgreeBut r { s with v := setRegsFrom s.v 0 bs } { s.setReg r b with v := setRegsFrom (s.setReg r b).v 0 bs } := by
  have hv : (setRegsFrom (s.v.set r.val b) 0 bs).set r.val 0 = (setRegsFrom s.v 0 bs).set r.val 0 := by
    ext j hj
    by_cases h : r.val = j
    · simp [h]
    · simp [getElem_setRegsFrom, h]
  simp only [AgreeBut, State.setReg, hv]

/-- Both answer a next state, and the two agree but for the register `r`. -/
def AnswersAgreeBut (r : Reg) (o o' : Result) : Prop := ∃ t t', o = .next t ∧ o' = .next t' ∧ AgreeBut r t t'

theorem AgreeBut.finish {r : Reg} {s s' : State} (k : PcClass) (h : AgreeBut r s s') :
    AnswersAgreeBut r (finish k s) (finish k s') := ⟨_, _, rfl, rfl, h.commit k⟩

theorem AgreeBut.trap {r : Reg} {s s' : State} (c : Cause) (i : Instr) (h : AgreeBut r s s') :
    AnswersAgreeBut r (trap c i s) (trap c i s') := ⟨_, _, rfl, rfl, h.takeFault c _⟩

theorem push?_setReg (s : State) (r : Reg) (b : Byte) (w : Word) :
    (s.setReg r b).push? w = (s.push? w).map (·.setReg r b) := by
  unfold State.push?
  split
  · next h => rw [dif_pos (by exact h)]; rfl
  · next h => rw [dif_neg (by exact h)]; rfl

theorem pop?_setReg (s : State) (r : Reg) (b : Byte) :
    (s.setReg r b).pop? = s.pop?.map (fun p => (p.1, p.2.setReg r b)) := by
  unfold State.pop?
  split
  · next h => rw [dif_pos (by exact h)]; rfl
  · next h => rw [dif_neg (by exact h)]; rfl

theorem regsUpTo_setReg (s : State) {x r : Reg} (h : x < r) (b : Byte) : (s.setReg r b).regsUpTo x = s.regsUpTo x := by
  have hr : x.val + 1 ≤ r.val := h
  simp [State.regsUpTo, State.setReg, Vector.toList_set, List.take_set_of_le hr]

theorem storeAtIndex_setReg (s : State) (r : Reg) (b : Byte) (i : Instr) (bytes : List Byte) :
    AnswersAgreeBut r (storeAtIndex i bytes s) (storeAtIndex i bytes (s.setReg r b)) := by
  have h := agreeBut_setReg s r b
  simp only [storeAtIndex, State.setReg_mem, State.indexAddr, State.setReg_i]
  cases s.mem.store? s.i.toNat bytes with
  | none => exact h.trap _ _
  | some m => exact (h.map (fun u => { u with mem := m }) fun _ => rfl).finish _

theorem skipOnKey_setReg {s : State} {r x : Reg} {b : Byte} (i : Instr) (want : Bool)
    (hx : (s.setReg r b).reg x = s.reg x) :
    AnswersAgreeBut r (skipOnKey i x want s) (skipOnKey i x want (s.setReg r b)) := by
  have h := agreeBut_setReg s r b
  simp only [skipOnKey, hx]
  cases keyIndex? (s.reg x) with
  | none => exact h.trap _ _
  | some k => exact h.finish _

/-- An instruction answers the same, but for the register itself, whatever a register it does not read holds. -/
theorem exec_setReg_unread {i : Instr} {r : Reg} (hr : r ∉ readsOf i) (s : State) (b : Byte) :
    AnswersAgreeBut r (exec i s) (exec i (s.setReg r b)) := by
  have h : AgreeBut r s (s.setReg r b) := agreeBut_setReg s r b
  have read : ∀ x ∈ readsOf i, (s.setReg r b).reg x = s.reg x := fun x hx =>
    State.reg_setReg_ne s r x b fun e => hr (e ▸ hx)
  cases i with
  | cls => exact (h.map (fun u => { u with fb := clearFrame }) fun _ => rfl).finish _
  | ret =>
    simp only [exec, execRet, pop?_setReg]
    cases s.pop? with
    | none => exact h.trap _ _
    | some p => exact (agreeBut_setReg p.2 r b).finish _
  | jp nnn => exact h.finish _
  | call nnn =>
    simp only [exec, execCall, push?_setReg, State.setReg_pc]
    cases s.push? (s.pc + 2) with
    | none => exact h.trap _ _
    | some u => exact (agreeBut_setReg u r b).finish _
  | seImm x kk => simp only [exec, execSeImm, read x (.head _)]; exact h.finish _
  | sneImm x kk => simp only [exec, execSneImm, read x (.head _)]; exact h.finish _
  | seReg x y => simp only [exec, execSeReg, read x (.head _), read y (.tail _ (.head _))]; exact h.finish _
  | ldImm x kk => exact (h.setReg x kk).finish _
  | addImm x kk => simp only [exec, execAddImm, read x (.head _)]; exact (h.setReg ..).finish _
  | ldReg x y => simp only [exec, execLdReg, read y (.head _)]; exact (h.setReg ..).finish _
  | orReg x y =>
    simp only [exec, execOrReg, read x (.head _), read y (.tail _ (.head _))]; exact (h.setReg ..).finish _
  | andReg x y =>
    simp only [exec, execAndReg, read x (.head _), read y (.tail _ (.head _))]; exact (h.setReg ..).finish _
  | xorReg x y =>
    simp only [exec, execXorReg, read x (.head _), read y (.tail _ (.head _))]; exact (h.setReg ..).finish _
  | addReg x y =>
    simp only [exec, execAddReg, read x (.head _), read y (.tail _ (.head _))]; exact (h.setFlagThenReg ..).finish _
  | subReg x y =>
    simp only [exec, execSubReg, read x (.head _), read y (.tail _ (.head _))]; exact (h.setFlagThenReg ..).finish _
  | shr x y => simp only [exec, execShr, read x (.head _)]; exact (h.setFlagThenReg ..).finish _
  | subn x y =>
    simp only [exec, execSubn, read x (.head _), read y (.tail _ (.head _))]; exact (h.setFlagThenReg ..).finish _
  | shl x y => simp only [exec, execShl, read x (.head _)]; exact (h.setFlagThenReg ..).finish _
  | sneReg x y => simp only [exec, execSneReg, read x (.head _), read y (.tail _ (.head _))]; exact h.finish _
  | ldI nnn => exact (h.map (fun u => { u with i := zextImm nnn }) fun _ => rfl).finish _
  | jpV0 nnn => simp only [exec, execJpV0, read V0 (.head _)]; exact h.finish _
  | rnd x kk => exact (h.setReg x _).finish _
  | drw x y n =>
    simp only [exec, execDrw, read x (.head _), read y (.tail _ (.head _)), State.setReg_mem, State.setReg_fb,
      State.indexAddr, State.setReg_i]
    cases s.mem.load? s.i.toNat n.toNat with
    | none => exact h.trap _ _
    | some bytes =>
      have hf := h.map (fun u => { u with fb := (drawSprite (s.reg x) (s.reg y) bytes s.fb).fb }) fun _ => rfl
      exact (hf.setReg ..).finish _
  | skp x => exact skipOnKey_setReg _ true (read x (.head _))
  | sknp x => exact skipOnKey_setReg _ false (read x (.head _))
  | ldVxDt x => exact (h.setReg x s.dt).finish _
  | ldVxK x =>
    have he : (s.setReg r b).lowestEdge = s.lowestEdge := rfl
    simp only [exec, execLdVxK, he]
    cases s.lowestEdge with
    | none => exact h.finish .wait
    | some k => exact (h.setReg x _).finish .next
  | ldDtVx x =>
    simp only [exec, execLdDtVx, read x (.head _)]
    exact (h.map (fun u => { u with dt := s.reg x }) fun _ => rfl).finish _
  | ldStVx x =>
    simp only [exec, execLdStVx, read x (.head _)]
    exact (h.map (fun u => { u with st := s.reg x }) fun _ => rfl).finish _
  | addI x =>
    simp only [exec, execAddI, read x (.head _), State.setReg_i]
    exact (h.map (fun u => { u with i := indexPlus s.i (s.reg x) }) fun _ => rfl).finish _
  | ldF x =>
    simp only [exec, execLdF, read x (.head _)]
    exact (h.map (fun u => { u with i := glyphAddr (s.reg x) }) fun _ => rfl).finish _
  | ldB x => simp only [exec, execLdB, read x (.head _)]; exact storeAtIndex_setReg s r b _ _
  | storeRegs x =>
    have hx : x < r := not_le.1 fun hle => hr (mem_regsTo.2 hle)
    simp only [exec, execStoreRegs, regsUpTo_setReg s hx]
    exact storeAtIndex_setReg s r b _ _
  | loadRegs x =>
    simp only [exec, execLoadRegs, State.setReg_mem, State.indexAddr, State.setReg_i]
    cases s.mem.load? s.i.toNat (x.val + 1) with
    | none => exact h.trap _ _
    | some bytes => exact (agreeBut_setRegsFrom s r b bytes).finish _

/-- Settles O14: the frame of `exec_writesOnly`, and the two runs of `exec_setReg_unread`. -/
theorem unlistedRegisterIsNeitherReadNorWritten : Obligations.UnlistedRegisterIsNeitherReadNorWritten := by
  refine ⟨fun i s t r h hr => exec_reg_unwritten h hr, fun i s t t' r b h h' hr => ?_⟩
  obtain ⟨u, u', hu, hu', agree⟩ := exec_setReg_unread hr s b
  obtain rfl : t = u := Host.Outcome.next.inj (h.symm.trans hu)
  obtain rfl : t' = u' := Host.Outcome.next.inj (h'.symm.trans hu')
  exact agree

/-! ## The cycle of a running CORE -/

/-- All a step of a running CORE can do: take a fault, or commit what the execute step of the fetched instruction
stages. -/
theorem step_cases {s : State} (h : s.faulted = false) :
    (∃ c w, step s = .next (takeFault c w s).closeCycle) ∨
    ∃ w i k u, fetch s = some w ∧ decodeWord w = .instr i ∧ Commits i s k u ∧
      step s = .next (commit k u).closeCycle := by
  cases hf : fetch s with
  | none => exact .inl ⟨.fetchOutOfRange, 0, step_stop h (by simp only [frontEnd, hf])⟩
  | some w =>
    cases hd : decodeWord w with
    | unknown v => exact .inl ⟨.unknownOpcode, v, step_stop h (frontEnd_unknown hf hd)⟩
    | instr i =>
      have hs := step_run h (frontEnd_run hf hd)
      rcases exec_cases i s with ⟨c, -, he⟩ | ⟨-, k, u, hc⟩
      · exact .inl ⟨c, encode i, by rw [hs, he, mapNext_next]⟩
      · exact .inr ⟨w, i, k, u, rfl, hd, hc, by rw [hs, hc.eq, mapNext_next]⟩

/-- Settles O13: `exec_cases` says which cycles wait. -/
theorem committedCycleKeepsTheKeySnapshot : Obligations.CommittedCycleKeepsTheKeySnapshot := by
  intro i s t _ h ht
  rcases exec_cases i s with ⟨c, -, he⟩ | ⟨-, k, u, hc⟩
  · obtain rfl := Host.Outcome.next.inj (h.symm.trans he)
    simp at ht
  · obtain rfl := Host.Outcome.next.inj (h.symm.trans hc.eq)
    rw [commit_keyPrev, commit_waiting, ← lowestEdge_none]
    exact ⟨hc.staged.key, hc.waits⟩

/-! ## The invariant -/

theorem Cause.code_ne_zero (c : Cause) : c.code ≠ 0 := by cases c <;> decide

theorem CoreInv.takeFault {s : State} (h : CoreInv s) (c : Cause) (w : Word) :
    CoreInv (takeFault c w s).closeCycle where
  memory := h.memory
  index := h.index
  pc := h.pc
  slots := h.slots
  running := fun hf => nomatch hf
  stopped := fun _ => ⟨c.code_ne_zero, rfl⟩
  window := fun hl => nomatch hl
  waits := h.waits

/-- The next PC of a fetched instruction is at most the largest BNNN target (R25, R118). -/
theorem advancePc_le {s : State} (h : CoreInv s) {k : PcClass} (hp : s.pc.toNat ≤ 0xFFE) (hk : JumpsTo k s) :
    (advancePc k s.pc).toNat ≤ 0x10FE := by
  cases k with
  | next => simp only [advancePc]; bv_omega
  | skip c => cases c <;> simp [advancePc] <;> bv_omega
  | jump t =>
    rcases hk t rfl with ht | ⟨j, rfl⟩
    · exact ht
    · exact (h.slots j).trans (by decide)
  | wait => exact h.pc

theorem PcClass.waits_iff {k : PcClass} : k.waits = true ↔ k = .wait := by cases k <;> simp [PcClass.waits]

theorem CoreInv.commit {s u : State} (h : CoreInv s) (hr : s.faulted = false) {w : Word} {i : Instr} {k : PcClass}
    (hf : fetch s = some w) (hd : decodeWord w = .instr i) (hc : Commits i s k u) :
    CoreInv (commit k u).closeCycle := by
  have hp : s.pc.toNat ≤ 0xFFE := by
    by_contra hp
    simp [fetch_outside (not_le.1 hp)] at hf
  have hu := hc.staged
  exact {
    memory := by simpa using hu.memory h.memory
    index := by
      rw [State.closeCycle_i, commit_i]
      rcases hu.index with hi | hi
      · rw [hi]; exact h.index
      · exact hi
    pc := by
      rw [State.closeCycle_pc, commit_pc, hu.pc]
      exact advancePc_le h hp hc.jumps
    slots := fun j => by
      rw [State.slot_closeCycle, State.slot_commit]
      rcases hu.slots j with hj | hj
      · rw [hj]; exact h.slots j
      · rw [hj]; bv_omega
    running := fun _ => by simpa [hu.faultCode, hu.faultPc, hu.faultInstr] using h.running hr
    stopped := fun ht => by simp [hu.faulted, hr] at ht
    window := fun hl => nomatch hl
    waits := fun hw => by
      rw [State.closeCycle_waiting, commit_waiting] at hw
      obtain ⟨⟨x, rfl⟩, -⟩ := hc.waits.1 hw
      obtain rfl := hc.stays hw
      obtain rfl := PcClass.waits_iff.1 hw
      exact ⟨w, x, hf, hd⟩ }

/-- Settles O56: a fault and a commit each keep the invariant. -/
theorem stepKeepsTheInvariant : Obligations.StepKeepsTheInvariant := by
  intro s t hs h
  cases hr : s.faulted with
  | true =>
    obtain rfl := Host.Outcome.next.inj ((step_faulted hr).symm.trans h)
    exact hs
  | false =>
    rcases step_cases hr with ⟨c, w, he⟩ | ⟨w, i, k, u, hf, hd, hc, he⟩
    · obtain rfl := Host.Outcome.next.inj (he.symm.trans h)
      exact hs.takeFault c w
    · obtain rfl := Host.Outcome.next.inj (he.symm.trans h)
      exact hs.commit hr hf hd hc

/-! ## A waiting CORE (R33, R206) -/

theorem step_ldVxK_waits {s : State} {w : Word} {x : Reg} (hr : s.faulted = false) (hf : fetch s = some w)
    (hd : decodeWord w = .instr (.ldVxK x)) (he : s.lowestEdge = none) : step s = .next (commit .wait s).closeCycle := by
  rw [step_run hr (frontEnd_run hf hd), exec, execLdVxK_waits he, mapNext_next]

theorem step_ldVxK_next {s : State} {w : Word} {x : Reg} {k : Fin 16} (hr : s.faulted = false)
    (hf : fetch s = some w) (hd : decodeWord w = .instr (.ldVxK x)) (he : s.lowestEdge = some k) :
    step s = .next (commit .next (s.setReg x (BitVec.ofNat 8 k.val))).closeCycle := by
  rw [step_run hr (frontEnd_run hf hd), exec, execLdVxK_next he, mapNext_next]

/-- Settles O49: the invariant gives the FX0A at PC, which waits on exactly when no key has a press edge. -/
theorem waitingCoreChangesOnlyTheKeySnapshot : Obligations.WaitingCoreChangesOnlyTheKeySnapshot := by
  intro s hs hr hw
  obtain ⟨w, x, hf, hd⟩ := hs.waits hw
  cases he : s.lowestEdge with
  | none =>
    refine ⟨_, step_ldVxK_waits hr hf hd he, rfl, hr, fun _ => ?_, fun ⟨k, hk⟩ => ?_⟩
    · exact ⟨rfl, fun _ => rfl, rfl, rfl, ⟨rfl, fun _ => rfl⟩, fun _ => rfl, fun _ _ => rfl, rfl, rfl⟩
    · exact absurd hk ((lowestEdge_none s).1 he k)
  | some k =>
    refine ⟨_, step_ldVxK_next hr hf hd he, rfl, hr, fun held => ?_, fun _ => ?_⟩
    · have hn : s.lowestEdge = none := (lowestEdge_none s).2 fun k ⟨hk, hp⟩
        => Bool.noConfusion (hp.symm.trans (held k hk))
      simp [hn] at he
    · exact ⟨rfl, rfl, timersTicked_commit .next rfl rfl rfl⟩

/-! ## Reset (R36) -/

theorem read_resetWith (font : Vector Byte Config.fontSize) (a : Nat) :
    (State.resetWith font).mem.read a = if h : a < Config.fontSize then font[a] else 0 := rfl

/-- Settles O51: the registers, slots and pixels are those of constant vectors, memory reads as the font over zeros. -/
theorem resetLeavesTheListedValues : Obligations.ResetLeavesTheListedValues := by
  refine ⟨fun r => ?_, rfl, rfl, rfl, fun j => ?_, rfl, rfl, fun a h => ?_, fun a h => ?_, fun y x => ?_,
    rfl, rfl, rfl, rfl, rfl, rfl⟩
  · exact Vector.getElem_replicate ..
  · exact Vector.getElem_replicate ..
  · exact (read_resetWith ..).trans (dif_pos h)
  · exact (read_resetWith ..).trans (dif_neg (Nat.not_lt.2 h))
  · simp [FrameBuffer.pixel, State.reset, State.resetWith]

/-- Settles O55, field by field. -/
theorem resetMeetsTheInvariant : Obligations.ResetMeetsTheInvariant where
  memory := wf_reset _
  index := by decide
  pc := by decide
  slots := fun j => by simp [State.slot, State.reset, State.resetWith]
  running := fun _ => ⟨rfl, rfl, rfl⟩
  stopped := fun h => nomatch h
  window := fun _ => ⟨rfl, rfl⟩
  waits := fun h => nomatch h

end Sys2Proof.Machine
end

section
/-! SUPPORT. The family 20_memory.md: which instructions write memory (R50), a byte read back after its write (R52), and
the fetch of bytes that FX55 stored (section 7). -/

namespace Sys2Proof.Machine

/-- Settles O17, by what each instruction may write. -/
theorem memoryIsWrittenOnlyByStores : Obligations.MemoryIsWrittenOnlyByStores := by
  intro i s t h hldB hstoreRegs
  obtain ⟨c, rfl⟩ | ⟨k, u, rfl, hu⟩ := exec_next_cases h
  · exact fun a => by rw [takeFault_mem]
  · exact fun a => by rw [commit_mem, hu.memory hldB hstoreRegs]

/-- Settles O40: the law of one write, at the written address and at another. -/
theorem readAfterWriteReturnsTheByte : Obligations.ReadAfterWriteReturnsTheByte := by
  intro m a v _
  exact ⟨by rw [Memory.read_write_law, if_pos rfl], fun b hb => by rw [Memory.read_write_law, if_neg hb]⟩

/-! ## The registers FX55 stored (R164) -/

theorem execStoreRegs_next {x : Reg} {s : State} (h : s.i.toNat + x.val ≤ 0xFFF) :
    execStoreRegs x s = .next (commit .next { s with mem := s.mem.writeBytes s.i.toNat (s.regsUpTo x) }) :=
  storeAtIndex_next _ (by rw [length_regsUpTo]; omega)

theorem Memory.read_writeBytes_regsUpTo (m : Memory) (a : Nat) (s : State) {x r : Reg} (h : r ≤ x) :
    (m.writeBytes a (s.regsUpTo x)).read (a + r.val) = s.reg r := by
  rw [Memory.read_writeBytes, if_pos (Nat.le_add_right ..), Nat.add_sub_cancel_left, getD_regsUpTo s h]

/-- Settles O41: the two bytes fetched are V[r] and V[q], read back from where FX55 stored them. -/
theorem storeIsSeenByTheNextFetch : Obligations.StoreIsSeenByTheNextFetch := by
  intro x s t r q hin hexec hr hq hqr hpc
  cases (execStoreRegs_next hin).symm.trans hexec
  have hqx : q.val ≤ x.val := hq
  have hlow : s.i.toNat + r.val + 1 = s.i.toNat + q.val := by omega
  refine ⟨_, fetch_inside (by omega), ?_⟩
  rw [joinBytes_toNat, hpc, hlow, commit_mem, Memory.read_writeBytes_regsUpTo _ _ s hr,
    Memory.read_writeBytes_regsUpTo _ _ s hq]

end Sys2Proof.Machine
end

section
/-! SUPPORT. The family 30_encoding.md: the encoder and the decoder undo one another, a row of the opcode map selects a
word by the fields its pattern fixes (R73), and the unknown words of R75. -/

namespace Sys2Proof

variable {w : Word} {f n : Nibble} {kk : Byte}

/-! ## A word whose fixed fields are known (R70) -/

theorem wordNNN_eq (hf : fieldFamily w = f) : wordNNN f (fieldNNN w) = w := hf ▸ wordNNN_of_fields w

theorem wordXKK_eq (hf : fieldFamily w = f) (hk : fieldKK w = kk) : wordXKK f (fieldX w) kk = w :=
  hf ▸ hk ▸ wordXKK_of_fields w

theorem wordXYN_eq (hf : fieldFamily w = f) (hn : fieldN w = n) : wordXYN f (fieldX w) (fieldY w) n = w :=
  hf ▸ hn ▸ wordXYN_of_fields w

/-! ## A word the fixed bits of a row select (R73) -/

theorem fieldFamily_of_mask (h : w &&& 0xF000 = wordNNN f 0) : fieldFamily w = f := by
  rw [← wordNNN_of_fields w, wordNNN_family] at h
  simpa using congrArg fieldFamily h

theorem wordXKK_eq_of_mask (h : w &&& 0xF0FF = wordXKK f 0 kk) : wordXKK f (fieldX w) kk = w := by
  rw [← wordXKK_of_fields w, wordXKK_fixed] at h
  exact wordXKK_eq (by simpa using congrArg fieldFamily h) (by simpa using congrArg fieldKK h)

theorem wordXYN_eq_of_mask (h : w &&& 0xF00F = wordXYN f 0 0 n) : wordXYN f (fieldX w) (fieldY w) n = w := by
  rw [← wordXYN_of_fields w, wordXYN_fixed] at h
  exact wordXYN_eq (by simpa using congrArg fieldFamily h) (by simpa using congrArg fieldN h)

/-! ## Decoding an encoding (R79) -/

/-- The decoder finds again every field the encoder laid down: the laws of Laws/Decode.lean, instruction by
instruction. -/
theorem decodeWord_encode (i : Instr) : decodeWord (encode i) = .instr i := by
  cases i with
  | cls | ret => decide
  | jp | call | seImm | sneImm | seReg | ldImm | addImm | sneReg | ldI | jpV0 | rnd | drw | skp | sknp =>
    simp [encode, decodeWord]
  | ldReg | orReg | andReg | xorReg | addReg | subReg | shr | subn | shl => simp [encode, decodeWord, decodeFamily8]
  | ldVxDt | ldVxK | ldDtVx | ldStVx | addI | ldF | ldB | storeRegs | loadRegs =>
    simp [encode, decodeWord, decodeFamilyF]

theorem decodeBytes_wordBytes {i : Instr} (h : decodeWord w = .instr i) (rest : List Byte) :
    decodeBytes (wordBytes w ++ rest) = .instr i rest := by
  simp [wordBytes, decodeBytes, h]

/-- Settles O2: as a word field by field, as bytes by joining them again (R54). -/
theorem encodeThenDecodeGivesInstruction : Obligations.EncodeThenDecodeGivesInstruction := fun i =>
  ⟨decodeWord_encode i, decodeBytes_wordBytes (decodeWord_encode i)⟩

/-! ## What the decoder answers -/

/-- The unknown words as R75 lists them, family by family. -/
def IsUnknownWord (w : Word) : Prop :=
  (fieldFamily w = 0x0 ∧ w ≠ 0x00E0 ∧ w ≠ 0x00EE) ∨
  (fieldFamily w = 0x5 ∧ fieldN w ≠ 0) ∨
  (fieldFamily w = 0x8 ∧ (8 ≤ (fieldN w).toNat ∧ (fieldN w).toNat ≤ 0xD ∨ fieldN w = 0xF)) ∨
  (fieldFamily w = 0x9 ∧ fieldN w ≠ 0) ∨
  (fieldFamily w = 0xE ∧ fieldKK w ≠ 0x9E ∧ fieldKK w ≠ 0xA1) ∨
  (fieldFamily w = 0xF ∧ fieldKK w ∉ ([0x07, 0x0A, 0x15, 0x18, 0x1E, 0x29, 0x33, 0x55, 0x65] : List Byte))

/-- The answer is an instruction whose encoding is the word, or unknown with the word, for a word R75 lists. -/
inductive AnswersFor (w : Word) : Decoded → Prop where
  | instr {i : Instr} (h : encode i = w) : AnswersFor w (.instr i)
  | unknown (h : IsUnknownWord w) : AnswersFor w (.unknown w)

theorem decodeFamily8_answers (hf : fieldFamily w = 0x8) : AnswersFor w (decodeFamily8 w) := by
  have hlt := (fieldN w).isLt
  unfold decodeFamily8
  split
  case h_10 =>
    have hn : 8 ≤ (fieldN w).toNat ∧ (fieldN w).toNat ≤ 0xD ∨ (fieldN w).toNat = 0xF := by
      simp only [imp_false] at *
      omega
    exact .unknown (.inr (.inr (.inl ⟨hf, hn.imp_right BitVec.eq_of_toNat_eq⟩)))
  all_goals exact .instr (wordXYN_eq hf (BitVec.eq_of_toNat_eq ‹_›))

theorem decodeFamilyF_answers (hf : fieldFamily w = 0xF) : AnswersFor w (decodeFamilyF w) := by
  unfold decodeFamilyF
  split_ifs
  case neg =>
    exact .unknown (.inr (.inr (.inr (.inr (.inr ⟨hf, by
      simp only [List.mem_cons, List.not_mem_nil, or_self, not_false_eq_true, *]⟩)))))
  all_goals exact .instr (wordXKK_eq hf ‹_›)

/-- Family by family (alternative `h_k` of the decoder is family `k - 1`): the field the decoder tested is the field of
the encoding, and no field is dropped (R74). -/
theorem decodeWord_answers (w : Word) : AnswersFor w (decodeWord w) := by
  have hlt := (fieldFamily w).isLt
  dsimp only [decodeWord]
  split
  case h_1 h =>
    have hf := BitVec.eq_of_toNat_eq (y := 0x0#4) h
    split_ifs with hcls hret
    · exact .instr hcls.symm
    · exact .instr hret.symm
    · exact .unknown (.inl ⟨hf, hcls, hret⟩)
  case h_6 h =>
    have hf := BitVec.eq_of_toNat_eq (y := 0x5#4) h
    split_ifs with hn
    · exact .instr (wordXYN_eq hf hn)
    · exact .unknown (.inr (.inl ⟨hf, hn⟩))
  case h_9 h => exact decodeFamily8_answers (BitVec.eq_of_toNat_eq h)
  case h_10 h =>
    have hf := BitVec.eq_of_toNat_eq (y := 0x9#4) h
    split_ifs with hn
    · exact .instr (wordXYN_eq hf hn)
    · exact .unknown (.inr (.inr (.inr (.inl ⟨hf, hn⟩))))
  case h_15 h =>
    have hf := BitVec.eq_of_toNat_eq (y := 0xE#4) h
    split_ifs with hskp hsknp
    · exact .instr (wordXKK_eq hf hskp)
    · exact .instr (wordXKK_eq hf hsknp)
    · exact .unknown (.inr (.inr (.inr (.inr (.inl ⟨hf, hskp, hsknp⟩)))))
  case h_16 =>
    have h : (fieldFamily w).toNat = 0xF := by simp only [imp_false] at *; omega
    exact decodeFamilyF_answers (BitVec.eq_of_toNat_eq h)
  case h_14 h => exact .instr (wordXYN_eq (BitVec.eq_of_toNat_eq h) rfl)
  case h_2 h | h_3 h | h_11 h | h_12 h => exact .instr (wordNNN_eq (BitVec.eq_of_toNat_eq h))
  case h_4 h | h_5 h | h_7 h | h_8 h | h_13 h => exact .instr (wordXKK_eq (BitVec.eq_of_toNat_eq h) rfl)

/-- Settles O3, by what the decoder answers. -/
theorem decodedWordIsItsEncoding : Obligations.DecodedWordIsItsEncoding := by
  intro w i hd
  obtain h | _ := hd ▸ decodeWord_answers w
  exact h

theorem decodeWord_eq_instr_iff {i : Instr} : decodeWord w = .instr i ↔ encode i = w :=
  ⟨decodedWordIsItsEncoding w i, fun h => h ▸ decodeWord_encode i⟩

/-- R75 lists no word that is an instruction's encoding. -/
theorem not_isUnknownWord_encode (i : Instr) : ¬ IsUnknownWord (encode i) := by
  unfold IsUnknownWord
  cases i with
  | cls | ret => decide
  | _ => simp [encode]

/-- Settles O5: an answer other than unknown would make the word an encoding. -/
theorem unknownWordsByFamily : Obligations.UnknownWordsByFamily := by
  intro w
  constructor
  · intro hd
    obtain _ | h := hd ▸ decodeWord_answers w
    exact h
  · intro hu
    cases hd : decodeWord w with
    | instr i => exact absurd (decodedWordIsItsEncoding w i hd ▸ hu) (not_isUnknownWord_encode i)
    | unknown v =>
      obtain _ | _ := hd ▸ decodeWord_answers w
      rfl

/-! ## The row that selects a word (R73) -/

/-- The instruction of the same row, its operands read from the fields of a word. -/
def Instr.withFields (w : Word) : Instr → Instr
  | .cls => .cls
  | .ret => .ret
  | .jp _ => .jp (fieldNNN w)
  | .call _ => .call (fieldNNN w)
  | .seImm _ _ => .seImm (fieldX w) (fieldKK w)
  | .sneImm _ _ => .sneImm (fieldX w) (fieldKK w)
  | .seReg _ _ => .seReg (fieldX w) (fieldY w)
  | .ldImm _ _ => .ldImm (fieldX w) (fieldKK w)
  | .addImm _ _ => .addImm (fieldX w) (fieldKK w)
  | .ldReg _ _ => .ldReg (fieldX w) (fieldY w)
  | .orReg _ _ => .orReg (fieldX w) (fieldY w)
  | .andReg _ _ => .andReg (fieldX w) (fieldY w)
  | .xorReg _ _ => .xorReg (fieldX w) (fieldY w)
  | .addReg _ _ => .addReg (fieldX w) (fieldY w)
  | .subReg _ _ => .subReg (fieldX w) (fieldY w)
  | .shr _ _ => .shr (fieldX w) (fieldY w)
  | .subn _ _ => .subn (fieldX w) (fieldY w)
  | .shl _ _ => .shl (fieldX w) (fieldY w)
  | .sneReg _ _ => .sneReg (fieldX w) (fieldY w)
  | .ldI _ => .ldI (fieldNNN w)
  | .jpV0 _ => .jpV0 (fieldNNN w)
  | .rnd _ _ => .rnd (fieldX w) (fieldKK w)
  | .drw _ _ _ => .drw (fieldX w) (fieldY w) (fieldN w)
  | .skp _ => .skp (fieldX w)
  | .sknp _ => .sknp (fieldX w)
  | .ldVxDt _ => .ldVxDt (fieldX w)
  | .ldVxK _ => .ldVxK (fieldX w)
  | .ldDtVx _ => .ldDtVx (fieldX w)
  | .ldStVx _ => .ldStVx (fieldX w)
  | .addI _ => .addI (fieldX w)
  | .ldF _ => .ldF (fieldX w)
  | .ldB _ => .ldB (fieldX w)
  | .storeRegs _ => .storeRegs (fieldX w)
  | .loadRegs _ => .loadRegs (fieldX w)

@[simp] theorem row_withFields (w : Word) (i : Instr) : (i.withFields w).row = i.row := by cases i <;> rfl

/-- By the layout of the word: the mask fixes the fields the pattern names, and the operands are the others. -/
theorem encode_withFields {i : Instr} (h : w &&& i.row.mask = i.row.bits) : encode (i.withFields w) = w := by
  cases i with
  | cls | ret => exact (BitVec.and_allOnes.symm.trans h).symm
  | jp | call | ldI | jpV0 => exact wordNNN_eq (fieldFamily_of_mask h)
  | seImm | sneImm | ldImm | addImm | rnd => exact wordXKK_eq (fieldFamily_of_mask h) rfl
  | drw => exact wordXYN_eq (fieldFamily_of_mask h) rfl
  | seReg | ldReg | orReg | andReg | xorReg | addReg | subReg | shr | subn | shl | sneReg =>
    exact wordXYN_eq_of_mask h
  | skp | sknp | ldVxDt | ldVxK | ldDtVx | ldStVx | addI | ldF | ldB | storeRegs | loadRegs =>
    exact wordXKK_eq_of_mask h

/-- A word decodes by the row that selects it, with its own fields as operands. -/
theorem decodeWord_of_row {i : Instr} (h : w &&& i.row.mask = i.row.bits) :
    decodeWord w = .instr (i.withFields w) :=
  decodeWord_eq_instr_iff.2 (encode_withFields h)

/-- The family MatchesRow of Laws/PerInstr.lean, over every instruction. -/
theorem encode_matchesRow (i : Instr) : Laws.MatchesRow.Statement i := by
  open Laws.MatchesRow in
  exact Instr.rec cls ret jp call seImm sneImm seReg ldImm addImm ldReg orReg andReg xorReg addReg subReg shr subn shl
    sneReg ldI jpV0 rnd drw skp sknp ldVxDt ldVxK ldDtVx ldStVx addI ldF ldB storeRegs loadRegs i

theorem row_mem_opcodeRows (i : Instr) : i.row ∈ opcodeRows := by
  cases i <;> simp [opcodeRows, Instr.shapes, Instr.row]

theorem exists_row_of_mem_opcodeRows {r : OpcodeRow} (h : r ∈ opcodeRows) : ∃ i : Instr, i.row = r := by
  obtain ⟨i, _, hi⟩ := List.mem_map.1 h
  exact ⟨i, hi⟩

/-- Settles O4: two rows that select one word are both the row of what the word decodes to. -/
theorem wordSelectsAtMostOneRow : Obligations.WordSelectsAtMostOneRow := by
  have hrow : ∀ w, ∀ r ∈ opcodeRows, w &&& r.mask = r.bits → ∃ i, decodeWord w = .instr i ∧ i.row = r := by
    intro w r hr h
    obtain ⟨i, rfl⟩ := exists_row_of_mem_opcodeRows hr
    exact ⟨i.withFields w, decodeWord_of_row h, row_withFields w i⟩
  refine ⟨rfl, hrow, fun w i hd => ⟨row_mem_opcodeRows i, ?_⟩, fun w r hr q hq h h' => ?_⟩
  · rw [← decodedWordIsItsEncoding w i hd]
    exact encode_matchesRow i
  · obtain ⟨i, hi, rfl⟩ := hrow w r hr h
    obtain ⟨j, hj, rfl⟩ := hrow w q hq h'
    cases hi.symm.trans hj
    rfl

/-! ## Words written out -/

/-- Settles O1: the decoder evaluated on each word. -/
theorem sampleWordsDecode : Obligations.SampleWordsDecode := by
  unfold Obligations.SampleWordsDecode
  decide

end Sys2Proof
end

section
/-! SUPPORT. The family 40_cycle_engine.md: fetch and decode at the start of a cycle (R94, R95), the port sample each
cycle uses up (R99), the timer phase at its end (R98), and both over any number of cycles. -/

namespace Sys2Proof.Machine

/-! ## Any number of steps -/

theorem run_succ {s u : State} (h : step s = .next u) (k : Nat) :
    Sys2Proof.core.run (k + 1) s = Sys2Proof.core.run k u := by
  have hs : Sys2Proof.core.step s = .next u := h
  simp only [Host.Core.run, hs]

/-- Settles O9, by induction on the number of steps. -/
theorem faultedCoreStandsStill : Obligations.FaultedCoreStandsStill := by
  intro s h k
  induction k with
  | zero => rfl
  | succ k ih => rw [run_succ (step_faulted h), ih]

/-! ## A fault before execute (R94, R95) -/

/-- What `closeCycle` adds to a fault is in none of the frames: they leave out the model's own fields. -/
theorem recorded_of_step {s : State} {c : Cause} {w : Word} (h : step s = .next (takeFault c w s).closeCycle) :
    ∃ t, step s = .next t ∧ RecordSays c w s t ∧ AllButRecord s t :=
  ⟨_, h, recordSays_takeFault c w s, allButRecord_takeFault c w s⟩

/-- Settles O7: the front end splits at PC = 0xFFE. -/
theorem fetchIsBigEndianAndBounded : Obligations.FetchIsBigEndianAndBounded :=
  ⟨fun _ h => ⟨_, fetch_inside h, joinBytes_toNat ..⟩,
    fun _ hr h => recorded_of_step (step_stop hr (frontEnd_outside h))⟩

theorem decodeWord_of_no_row {w : Word} (h : ∀ r ∈ opcodeRows, w &&& r.mask ≠ r.bits) :
    decodeWord w = .unknown w := by
  cases hd : decodeWord w with
  | instr i =>
    obtain ⟨-, -, selected, -⟩ := wordSelectsAtMostOneRow
    obtain ⟨hmem, hsel⟩ := selected w i hd
    exact absurd hsel (h _ hmem)
  | unknown v =>
    obtain _ | _ := hd ▸ decodeWord_answers w
    rfl

/-- Settles O8: the word the two bytes join to is unknown, because no row selects it. -/
theorem unknownWordFaults : Obligations.UnknownWordFaults := by
  intro s w hr hp hw hrows
  have hf : fetch s = some w := by
    rw [fetch_inside hp, ← BitVec.eq_of_toNat_eq (hw.trans (joinBytes_toNat ..).symm)]
  exact recorded_of_step (step_stop hr (frontEnd_unknown hf (decodeWord_of_no_row hrows)))

/-! ## An executed cycle (R92, R96, R99) -/

theorem decodeWord_of_decodeBytes {hi lo : Byte} {i : Instr} {rest : List Byte}
    (h : decodeBytes [hi, lo] = .instr i rest) : decodeWord (joinBytes hi lo) = .instr i := by
  simp only [decodeBytes] at h
  split at h
  · next hd => cases h; exact hd
  · cases h

/-- Settles O6: fetch and decode answer the instruction, and `closeCycle` is what the step adds. -/
theorem stepExecutesTheDecodedInstruction : Obligations.StepExecutesTheDecodedInstruction := by
  intro s i hr hp hd t ht
  rw [step_run hr (frontEnd_run (fetch_inside hp) (decodeWord_of_decodeBytes hd)), ht]
  rfl

theorem sample_of_inputs {s : State} {p : PortSample} {l : List PortSample} (h : s.inputs = p :: l) : s.sample = p := by
  simp only [State.sample, h]

/-- Neither a fault nor the execute step touches the queue, so `closeCycle` alone takes from it. -/
theorem step_inputs {s : State} (hr : s.faulted = false) : ∃ t, step s = .next t ∧ t.inputs = s.inputs.tail := by
  rcases step_cases hr with ⟨c, w, h⟩ | ⟨w, i, k, u, -, -, hc, h⟩
  · exact ⟨_, h, by rw [State.closeCycle_inputs, takeFault_inputs]⟩
  · exact ⟨_, h, by rw [State.closeCycle_inputs, commit_inputs, hc.staged.inputs]⟩

/-- Settles O58: KEY and RND are the fields of the sample read, and the tail of the queue is what a step leaves. -/
theorem cycleReadsTheOldestQueuedSample : Obligations.CycleReadsTheOldestQueuedSample := by
  intro s p l h
  have hp : s.sample = p := sample_of_inputs h
  refine ⟨congrArg PortSample.key hp, congrArg PortSample.rnd hp, fun hr => ?_⟩
  obtain ⟨t, ht, hl⟩ := step_inputs hr
  exact ⟨t, ht, by rw [hl, h, List.tail_cons]⟩

/-! ## The timers (R98, R232) -/

theorem exec_ldDtVx_dt {x : Reg} {s t : State} (h : exec (.ldDtVx x) s = .next t) : t.dt = tickTimer (s.reg x) := by
  cases h; rfl

theorem exec_ldStVx_st {x : Reg} {s t : State} (h : exec (.ldStVx x) s = .next t) : t.st = tickTimer (s.reg x) := by
  cases h; rfl

/-- Settles O12: only FX0A waits, and it stages no timer; any other commit ticks the timers staged, which but for the
two set-timer instructions are those of `s`. -/
theorem timersTickOncePerCommittedCycle : Obligations.TimersTickOncePerCommittedCycle := by
  intro i s t hr h ht
  have waits := (committedCycleKeepsTheKeySnapshot i s t hr h ht).2.1
  obtain ⟨c, rfl⟩ | ⟨k, u, rfl, hu⟩ := exec_next_cases h
  · simp at ht
  split_ifs with hw
  · obtain ⟨⟨x, rfl⟩, -⟩ := waits hw
    rw [commit_waiting] at hw
    rw [commit_dt, commit_st, if_pos hw, if_pos hw]
    exact ⟨hu.dt (by simp), hu.st (by simp)⟩
  · rw [commit_waiting] at hw
    refine ⟨fun x hi => ?_, fun hi => ?_, fun x hi => ?_, fun hi => ?_⟩
    · subst hi; rw [exec_ldDtVx_dt h, tickTimer_toNat]
    · rw [commit_dt, if_neg hw, hu.dt hi, tickTimer_toNat]
    · subst hi; rw [exec_ldStVx_st h, tickTimer_toNat]
    · rw [commit_st, if_neg hw, hu.st hi, tickTimer_toNat]

/-- Settles O46: FX07 stages V[X] alone, with DT as read before the timer phase. -/
theorem readDelayTimerBeforeTheTick : Obligations.ReadDelayTimerBeforeTheTick :=
  ⟨fun _ h => decodeWord_of_row (i := .ldVxDt 0) h,
    fun x s => ⟨_, rfl, by rw [State.reg_commit, State.reg_setReg_self], sameRegsBut_setReg s .next x s.dt,
      registerCycle_setReg s x s.dt⟩⟩

/-- One cycle that neither faults, waits nor sets the delay timer takes it down by one. -/
theorem step_dt {s t : State} (hr : s.faulted = false) (h : step s = .next t) (ht : t.faulted = false)
    (hw : t.waiting = false) (hset : ∀ x, frontEnd s ≠ .run (.ldDtVx x)) : t.dt.toNat = s.dt.toNat - 1 := by
  rcases step_cases hr with ⟨c, w, he⟩ | ⟨w, i, k, u, hf, hd, hc, he⟩
  · cases he.symm.trans h
    cases ht
  · cases he.symm.trans h
    have hi : ∀ x, i ≠ .ldDtVx x := fun x hx => hset x (hx ▸ frontEnd_run hf hd)
    have timers := timersTickOncePerCommittedCycle i s _ hr hc.eq ht
    rw [State.closeCycle_waiting] at hw
    rw [if_neg (ne_true_of_eq_false hw)] at timers
    obtain ⟨-, ticked, -⟩ := timers
    exact ticked hi

/-- Settles O50, by induction on the number of cycles from the first one on. -/
theorem delayTimerCountsCycles : Obligations.DelayTimerCountsCycles := by
  intro k
  induction k with
  | zero =>
    intro s t h _ _ _
    cases h
    rfl
  | succ k ih =>
    intro s t h hset hrun hwait
    have hr : s.faulted = false := hrun 0 s (Nat.zero_le _) rfl
    obtain ⟨u, hu, -⟩ := step_inputs hr
    have shift (j : Nat) : Sys2Proof.core.run (j + 1) s = Sys2Proof.core.run j u := run_succ hu j
    have tick : u.dt.toNat = s.dt.toNat - 1 :=
      step_dt hr hu (hrun 1 u (by omega) (shift 0)) (hwait 1 u (by omega) (by omega) (shift 0))
        (hset 0 s (by omega) rfl)
    have rest : t.dt.toNat = u.dt.toNat - k :=
      ih u t ((shift k).symm.trans h)
        (fun j v hj hv => hset (j + 1) v (by omega) ((shift j).trans hv))
        (fun j v hj hv => hrun (j + 1) v (by omega) ((shift j).trans hv))
        (fun j v _ hj hv => hwait (j + 1) v (by omega) (by omega) ((shift j).trans hv))
    omega

end Sys2Proof.Machine
end

section
/-! SUPPORT. The family 41_control_flow.md: the jumps and the skips write nothing but the PC (R111, R113 to R116, R118);
2NNN and 00EE write the stack besides (R110, R112). -/

namespace Sys2Proof.Machine

/-! ## The jumps (R111, R118) -/

/-- Settles O20: `jp` commits the state as it was, with the address as its target. -/
theorem jpSetsPc : Obligations.JpSetsPc :=
  ⟨fun _ h => decodeWord_of_row (i := .jp 0) h,
    fun _ s => ⟨_, rfl, zextImm_toNat _, pcCycle_commit s _ rfl⟩⟩

/-- Settles O25: the sum of an address and a byte fits 16 bits. -/
theorem jpV0AddsV0 : Obligations.JpV0AddsV0 :=
  ⟨fun _ h => decodeWord_of_row (i := .jpV0 0) h,
    fun _ s => ⟨_, rfl, offsetTarget_toNat .., pcCycle_commit s _ rfl⟩⟩

/-! ## The skips (R113 to R116) -/

theorem advancePc_skip_beq (a b : Byte) (pc : Word) :
    advancePc (.skip (a == b)) pc = pc + (if a = b then 4 else 2) := by
  simp only [advancePc, beq_iff_eq]

theorem advancePc_skip_bne (a b : Byte) (pc : Word) :
    advancePc (.skip (a != b)) pc = pc + (if a = b then 2 else 4) := by
  simp only [advancePc, bne_iff_ne, ite_not]

/-- Settles O23: both skips commit the state as it was, on `V[x]` and the immediate compared. -/
theorem skipOnImmediate : Obligations.SkipOnImmediate :=
  ⟨fun _ h => decodeWord_of_row (i := .seImm 0 0) h, fun _ h => decodeWord_of_row (i := .sneImm 0 0) h,
    fun _ _ s => ⟨_, rfl, advancePc_skip_beq .., pcCycle_commit s _ rfl⟩,
    fun _ _ s => ⟨_, rfl, advancePc_skip_bne .., pcCycle_commit s _ rfl⟩⟩

/-- Settles O24: as `skipOnImmediate`, on `V[x]` and `V[y]` compared. -/
theorem skipOnRegister : Obligations.SkipOnRegister :=
  ⟨fun _ h => decodeWord_of_row (i := .seReg 0 0) h, fun _ h => decodeWord_of_row (i := .sneReg 0 0) h,
    fun _ _ s => ⟨_, rfl, advancePc_skip_beq .., pcCycle_commit s _ rfl⟩,
    fun _ _ s => ⟨_, rfl, advancePc_skip_bne .., pcCycle_commit s _ rfl⟩⟩

/-! ## Call and return (R110, R112) -/

/-- What is kept by an instruction that writes nothing but the PC and the stack: `PcCycle` without the stack. -/
def StackCycle (s t : State) : Prop :=
  SameRegs s t ∧ t.i = s.i ∧ SameMemory s t ∧ SamePixels s t ∧ TimersTicked s t ∧ CycleClosed s t

theorem stackCycle_commit_jump (s : State) (stack : Vector Word 16) (sp : Fin 17) (w : Word) :
    StackCycle s (commit (.jump w) { s with stack := stack, sp := sp }) := by
  obtain ⟨hregs, hi, -, hmem, hpixels, htimers, hclosed⟩ := pcCycle_commit s (.jump w) rfl
  exact ⟨hregs, hi, hmem, hpixels, htimers, hclosed⟩

theorem execRet_next {s : State} (j : Fin 16) (h : s.sp.val = j.val + 1) :
    execRet s = .next (commit (.jump (s.slot j)) { s with sp := ⟨j.val, by omega⟩ }) := by
  simp only [execRet, pop?_used j h, finish_eq]

theorem execRet_trap {s : State} (h : s.sp.val = 0) :
    execRet s = .next (takeFault .stackUnderflow (encode .ret) s) := by
  simp only [execRet, pop?_empty h, trap_eq]

theorem execCall_next {s : State} (nnn : Imm12) (h : s.sp.val < 16) :
    execCall nnn s = .next (commit (.jump (zextImm nnn))
      { s with stack := s.stack.set s.sp.val (s.pc + 2), sp := ⟨s.sp.val + 1, by omega⟩ }) := by
  simp only [execCall, push?_free h, finish_eq]

theorem execCall_trap {s : State} (nnn : Imm12) (h : s.sp.val = 16) :
    execCall nnn s = .next (takeFault .stackOverflow (encode (.call nnn)) s) := by
  simp only [execCall, push?_full h, trap_eq]

/-- Settles O19: a pop writes SP alone, and gives the slot it uncovers as the target. -/
theorem retPopsIntoPc : Obligations.RetPopsIntoPc :=
  ⟨fun _ h => decodeWord_eq_instr_iff.2 h.symm,
    fun _ j h => ⟨_, execRet_next j h, rfl, rfl, fun _ => rfl, stackCycle_commit_jump ..⟩,
    fun _ h => raises_of_takeFault (execRet_trap h)⟩

/-- Settles O21: a push writes SP and the slot SP named, and no other slot. -/
theorem callPushesReturnAddress : Obligations.CallPushesReturnAddress := by
  refine ⟨fun _ h => decodeWord_of_row (i := .call 0) h, ?_,
    fun nnn _ h => raises_of_takeFault (execCall_trap nnn h)⟩
  rintro nnn s ⟨j, hj⟩ h
  obtain rfl : s.sp.val = j := h
  refine ⟨_, execCall_next nnn hj, ?_, fun k hk => ?_, rfl, zextImm_toNat nnn, stackCycle_commit_jump ..⟩
  · exact Vector.getElem_set_self ..
  · exact Vector.getElem_set_ne hj k.isLt fun hsp => hk (Fin.ext hsp.symm)

/-- Settles O22: the call leaves PC + 2 in the slot that the return uncovers, and neither writes a slot below it. -/
theorem callThenRetReturnsAfterTheCall : Obligations.CallThenRetReturnsAfterTheCall := by
  intro nnn s t u h hcall hret
  obtain ⟨-, call, -⟩ := callPushesReturnAddress
  obtain ⟨-, ret, -⟩ := retPopsIntoPc
  obtain ⟨_, ht, hpushed, hothers, hspCall, -⟩ := call nnn s ⟨s.sp.val, h⟩ rfl
  cases ht.symm.trans hcall
  obtain ⟨_, hu, hpc, hspRet, hslots, -⟩ := ret t ⟨s.sp.val, h⟩ hspCall
  cases hu.symm.trans hret
  exact ⟨hpc.trans hpushed, Fin.ext hspRet, fun k hk => (hslots k).trans (hothers k (Fin.ne_of_lt hk))⟩

end Sys2Proof.Machine
end

section
/-! SUPPORT. The family 42_alu.md: the loads and the operations without a flag write one register (R131 to R136, R143);
the flag-writing operations write VF first and `V[x]` second (R137 to R142). -/

namespace Sys2Proof.Machine

/-! ## Operations that write one register (R131 to R136, R143) -/

theorem reg_commit_setReg (s : State) (k : PcClass) (x : Reg) (b : Byte) : (commit k (s.setReg x b)).reg x = b := by
  rw [State.reg_commit, State.reg_setReg_self]

theorem frame_setReg (s : State) (x : Reg) (b : Byte) :
    SameRegsBut x s (commit .next (s.setReg x b)) ∧ RegisterCycle s (commit .next (s.setReg x b)) :=
  ⟨sameRegsBut_setReg s .next x b, registerCycle_setReg ..⟩

/-- Settles O26: each commits `V[x]` alone, with the byte the rule names. -/
theorem loadsWriteTheirRegister : Obligations.LoadsWriteTheirRegister :=
  ⟨fun _ h => decodeWord_of_row (i := .ldImm 0 0) h, fun _ h => decodeWord_of_row (i := .ldReg 0 0) h,
    fun _ h => decodeWord_of_row (i := .rnd 0 0) h,
    fun _ _ _ => ⟨_, rfl, reg_commit_setReg .., frame_setReg ..⟩,
    fun _ _ _ => ⟨_, rfl, reg_commit_setReg .., frame_setReg ..⟩,
    fun _ _ _ => ⟨_, rfl, reg_commit_setReg .., frame_setReg ..⟩⟩

/-- Settles O27: the sum of two bytes is taken modulo 2 ^ 8, and `V[x]` alone is written. -/
theorem addImmediateWrapsWithoutFlag : Obligations.AddImmediateWrapsWithoutFlag :=
  ⟨fun _ h => decodeWord_of_row (i := .addImm 0 0) h,
    fun _ _ _ => ⟨_, rfl, by rw [reg_commit_setReg, BitVec.toNat_add], frame_setReg ..⟩⟩

/-- Settles O28: each operation acts bit by bit, and `V[x]` alone is written. -/
theorem bitwiseOperationsLeaveTheFlag : Obligations.BitwiseOperationsLeaveTheFlag :=
  ⟨fun _ h => decodeWord_of_row (i := .orReg 0 0) h, fun _ h => decodeWord_of_row (i := .andReg 0 0) h,
    fun _ h => decodeWord_of_row (i := .xorReg 0 0) h,
    fun _ _ _ => ⟨_, rfl, fun _ => by rw [reg_commit_setReg, BitVec.getLsbD_or], frame_setReg ..⟩,
    fun _ _ _ => ⟨_, rfl, fun _ => by rw [reg_commit_setReg, BitVec.getLsbD_and], frame_setReg ..⟩,
    fun _ _ _ => ⟨_, rfl, fun _ => by rw [reg_commit_setReg, BitVec.getLsbD_xor], frame_setReg ..⟩⟩

/-! ## The flags and the shifts as numbers (R138 to R142) -/

theorem flagByte_carryOut (a b : Byte) : flagByte (carryOut a b) = if 255 < a.toNat + b.toNat then 1 else 0 := by
  simp only [flagByte, carryOut, decide_eq_true_eq]

theorem flagByte_notBorrow (a b : Byte) : flagByte (notBorrow a b) = if b.toNat ≤ a.toNat then 1 else 0 := by
  simp only [flagByte, notBorrow, decide_eq_true_eq]

theorem flagByte_toNat (c : Bool) : (flagByte c).toNat = c.toNat := by cases c <;> rfl

theorem flagByte_shiftedOutRight_toNat (a : Byte) : (flagByte (shiftedOutRight a)).toNat = a.toNat % 2 := by
  rw [flagByte_toNat, shiftedOutRight, BitVec.getLsbD, Nat.toNat_testBit, pow_zero, Nat.div_one]

theorem flagByte_shiftedOutLeft_toNat (a : Byte) : (flagByte (shiftedOutLeft a)).toNat = a.toNat / 128 := by
  have := a.isLt
  rw [flagByte_toNat, shiftedOutLeft, BitVec.getLsbD, Nat.toNat_testBit]
  omega

theorem shiftRight_one_toNat (a : Byte) : (a >>> 1).toNat = a.toNat / 2 := by
  rw [BitVec.toNat_ushiftRight, Nat.shiftRight_one]

theorem shiftLeft_one_toNat (a : Byte) : (a <<< 1).toNat = a.toNat * 2 % 256 := by
  rw [BitVec.toNat_shiftLeft, Nat.shiftLeft_eq, pow_one]

/-! ## What a flag-writing operation leaves in `V[x]` and VF (R137)

The result is there for every `x`, being written last; the flag is there where `x` is not VF itself. -/

section FlagOperations

variable {s t : State} {x y : Reg}

theorem result_of_setFlagThenReg {f : Bool} {b : Byte}
    (h : Host.Outcome.next (commit .next (s.setFlagThenReg f x b)) = (.next t : Result)) : t.reg x = b := by
  cases h
  rw [State.reg_commit, State.reg_setFlagThenReg_self]

theorem flag_of_setFlagThenReg {f : Bool} {b : Byte}
    (h : Host.Outcome.next (commit .next (s.setFlagThenReg f x b)) = (.next t : Result)) (hx : x ≠ VF) :
    t.reg VF = flagByte f := by
  cases h
  exact flag_setFlagThenReg s _ f b hx

theorem exec_addReg_result (h : exec (.addReg x y) s = .next t) :
    (t.reg x).toNat = ((s.reg x).toNat + (s.reg y).toNat) % 256 := by
  rw [result_of_setFlagThenReg h, BitVec.toNat_add]

theorem exec_addReg_flag (h : exec (.addReg x y) s = .next t) (hx : x ≠ VF) :
    t.reg VF = if 255 < (s.reg x).toNat + (s.reg y).toNat then 1 else 0 :=
  (flag_of_setFlagThenReg h hx).trans (flagByte_carryOut ..)

theorem exec_subReg_result (h : exec (.subReg x y) s = .next t) :
    ((t.reg x).toNat : Int) = ((s.reg x).toNat - (s.reg y).toNat : Int) % 256 := by
  rw [result_of_setFlagThenReg h, sub_toNat]

theorem exec_subReg_flag (h : exec (.subReg x y) s = .next t) (hx : x ≠ VF) :
    t.reg VF = if (s.reg y).toNat ≤ (s.reg x).toNat then 1 else 0 :=
  (flag_of_setFlagThenReg h hx).trans (flagByte_notBorrow ..)

theorem exec_subn_result (h : exec (.subn x y) s = .next t) :
    ((t.reg x).toNat : Int) = ((s.reg y).toNat - (s.reg x).toNat : Int) % 256 := by
  rw [result_of_setFlagThenReg h, sub_toNat]

theorem exec_subn_flag (h : exec (.subn x y) s = .next t) (hx : x ≠ VF) :
    t.reg VF = if (s.reg x).toNat ≤ (s.reg y).toNat then 1 else 0 :=
  (flag_of_setFlagThenReg h hx).trans (flagByte_notBorrow ..)

theorem exec_shr_result (h : exec (.shr x y) s = .next t) : (t.reg x).toNat = (s.reg x).toNat / 2 := by
  rw [result_of_setFlagThenReg h, shiftRight_one_toNat]

theorem exec_shr_flag (h : exec (.shr x y) s = .next t) (hx : x ≠ VF) : (t.reg VF).toNat = (s.reg x).toNat % 2 := by
  rw [flag_of_setFlagThenReg h hx, flagByte_shiftedOutRight_toNat]

theorem exec_shl_result (h : exec (.shl x y) s = .next t) : (t.reg x).toNat = (s.reg x).toNat * 2 % 256 := by
  rw [result_of_setFlagThenReg h, shiftLeft_one_toNat]

theorem exec_shl_flag (h : exec (.shl x y) s = .next t) (hx : x ≠ VF) : (t.reg VF).toNat = (s.reg x).toNat / 128 := by
  rw [flag_of_setFlagThenReg h hx, flagByte_shiftedOutLeft_toNat]

/-- Either subtraction of a register from itself. -/
theorem exec_sub_self_result (h : exec (.subReg x x) s = .next t ∨ exec (.subn x x) s = .next t) : t.reg x = 0 := by
  obtain h | h := h <;> exact (result_of_setFlagThenReg h).trans (BitVec.sub_self _)

theorem exec_sub_self_flag (h : exec (.subReg x x) s = .next t ∨ exec (.subn x x) s = .next t) (hx : x ≠ VF) :
    t.reg VF = 1 := by
  obtain h | h := h
  · rw [exec_subReg_flag h hx, if_pos le_rfl]
  · rw [exec_subn_flag h hx, if_pos le_rfl]

theorem exec_add_self_result (h : exec (.addReg x x) s = .next t) : (t.reg x).toNat = 2 * (s.reg x).toNat % 256 := by
  rw [exec_addReg_result h, two_mul]

theorem exec_add_self_flag (h : exec (.addReg x x) s = .next t) (hx : x ≠ VF) :
    t.reg VF = if 128 ≤ (s.reg x).toNat then 1 else 0 := by
  have carry : 255 < (s.reg x).toNat + (s.reg x).toNat ↔ 128 ≤ (s.reg x).toNat := by omega
  simp only [exec_addReg_flag h hx, carry]

end FlagOperations

/-- Settles O34: the result and the flag of each operation, read where `x`, `y` or both are VF, and where they are
equal. -/
theorem aliasedFlagOperations : Obligations.AliasedFlagOperations :=
  ⟨fun _ _ _ => exec_addReg_result, fun _ _ _ => exec_subReg_result, fun _ _ _ => exec_shr_result,
    fun _ _ _ => exec_subn_result, fun _ _ _ => exec_shl_result,
    fun _ _ _ hx h => ⟨exec_addReg_result h, exec_addReg_flag h hx⟩,
    fun _ _ _ hx h => ⟨exec_subReg_result h, exec_subReg_flag h hx⟩,
    fun _ _ _ hx h => ⟨exec_subn_result h, exec_subn_flag h hx⟩,
    fun _ _ _ hx h => ⟨exec_add_self_result h, exec_add_self_flag h hx⟩,
    fun _ _ _ hx h => ⟨exec_sub_self_result h, exec_sub_self_flag h hx⟩,
    fun _ _ => exec_sub_self_result,
    fun _ _ _ _ hx h => ⟨exec_shr_result h, exec_shr_flag h hx⟩,
    fun _ _ _ _ hx h => ⟨exec_shl_result h, exec_shl_flag h hx⟩⟩

/-! ## The flag-writing operations for all operands (R138 to R142) -/

theorem frame_setFlagThenReg (s : State) (f : Bool) (x : Reg) (b : Byte) :
    SameRegsButFlagAnd x s (commit .next (s.setFlagThenReg f x b)) ∧
    RegisterCycle s (commit .next (s.setFlagThenReg f x b)) :=
  ⟨sameRegsButFlagAnd_setFlagThenReg s .next f x b, registerCycle_setFlagThenReg ..⟩

/-- Settles O29: the flag is the carry out of the sum. -/
theorem addSetsCarry : Obligations.AddSetsCarry :=
  ⟨fun _ h => decodeWord_of_row (i := .addReg 0 0) h,
    fun _ _ _ => ⟨_, rfl, exec_addReg_result rfl, exec_addReg_flag rfl, frame_setFlagThenReg ..⟩⟩

/-- Settles O30: the flag is the not-borrow of `V[x] - V[y]`. -/
theorem subSetsNotBorrow : Obligations.SubSetsNotBorrow :=
  ⟨fun _ h => decodeWord_of_row (i := .subReg 0 0) h,
    fun _ _ _ => ⟨_, rfl, exec_subReg_result rfl, exec_subReg_flag rfl, frame_setFlagThenReg ..⟩⟩

/-- Settles O31: the flag is the not-borrow of `V[y] - V[x]`. -/
theorem subnSetsNotBorrow : Obligations.SubnSetsNotBorrow :=
  ⟨fun _ h => decodeWord_of_row (i := .subn 0 0) h,
    fun _ _ _ => ⟨_, rfl, exec_subn_result rfl, exec_subn_flag rfl, frame_setFlagThenReg ..⟩⟩

/-- Settles O32: the flag is the bit shifted out on the right. -/
theorem shrShiftsOutBitZero : Obligations.ShrShiftsOutBitZero :=
  ⟨fun _ h => decodeWord_of_row (i := .shr 0 0) h,
    fun _ y _ => ⟨_, rfl, exec_shr_result (y := y) rfl, exec_shr_flag (y := y) rfl, frame_setFlagThenReg ..⟩⟩

/-- Settles O33: the flag is the bit shifted out on the left. -/
theorem shlShiftsOutBitSeven : Obligations.ShlShiftsOutBitSeven :=
  ⟨fun _ h => decodeWord_of_row (i := .shl 0 0) h,
    fun _ y _ => ⟨_, rfl, exec_shl_result (y := y) rfl, exec_shl_flag (y := y) rfl, frame_setFlagThenReg ..⟩⟩

end Sys2Proof.Machine
end

section
/-! SUPPORT. The family 43_index_memory.md: the instructions that write I alone (R160 to R162), the stores at I (R163,
R164), and the load of registers from I (R165). -/

namespace Sys2Proof.Machine

/-! ## The index instructions (R160 to R162) -/

/-- What is kept by an instruction of class Next that writes nothing but I: `PcCycle` with the PC in place of I. -/
def IndexCycle (s t : State) : Prop :=
  t.pc = s.pc + 2 ∧ SameRegs s t ∧ SameStack s t ∧ SameMemory s t ∧ SamePixels s t ∧ TimersTicked s t ∧ CycleClosed s t

theorem indexCycle_commit (s : State) (w : Word) : IndexCycle s (commit .next { s with i := w }) := by
  obtain ⟨hregs, -, hkept⟩ := pcCycle_commit s .next rfl
  exact ⟨rfl, hregs, hkept⟩

/-- Settles O35: each commits I alone, with the value the rule names. -/
theorem indexInstructionsWriteIndex : Obligations.IndexInstructionsWriteIndex :=
  ⟨fun _ h => decodeWord_of_row (i := .ldI 0) h, fun _ h => decodeWord_of_row (i := .addI 0) h,
    fun _ h => decodeWord_of_row (i := .ldF 0) h,
    fun _ _ => ⟨_, rfl, zextImm_toNat _, indexCycle_commit ..⟩,
    fun _ _ => ⟨_, rfl, indexPlus_toNat .., indexCycle_commit ..⟩,
    fun _ _ => ⟨_, rfl, glyphAddr_toNat _, indexCycle_commit ..⟩⟩

/-! ## The stores at I (R163, R164) -/

/-- What is kept by an instruction of class Next that writes nothing but memory: `PcCycle` with the PC in place of
memory. -/
def StoreCycle (s t : State) : Prop :=
  t.pc = s.pc + 2 ∧ SameRegs s t ∧ t.i = s.i ∧ SameStack s t ∧ SamePixels s t ∧ TimersTicked s t ∧ CycleClosed s t

/-- Memory is written, but the font parameter it carries is not. -/
theorem storeCycle_commit (s : State) (a : Nat) (bs : List Byte) :
    StoreCycle s (commit .next { s with mem := s.mem.writeBytes a bs }) := by
  obtain ⟨hregs, hi, hstack, -, hpixels, htimers, hkey, hwaiting, hrecord, -, hports⟩ := pcCycle_commit s .next rfl
  exact ⟨rfl, hregs, hi, hstack, hpixels, htimers, hkey, hwaiting, hrecord, Memory.writeBytes_font .., hports⟩

theorem Memory.read_writeBytes_outside (m : Memory) {a b : Nat} {bs : List Byte} (h : b < a ∨ a + bs.length ≤ b) :
    (m.writeBytes a bs).read b = m.read b := by
  rw [Memory.read_writeBytes]
  split
  · rw [List.getD_eq_default]; omega
  · rfl

theorem sameMemoryOutside_writeBytes (s : State) (k : PcClass) (a : Nat) {bs : List Byte} {n : Nat}
    (hn : bs.length = n) : SameMemoryOutside a n s (commit k { s with mem := s.mem.writeBytes a bs }) := by
  intro b hb
  rw [commit_mem, Memory.read_writeBytes_outside _ (hn ▸ hb)]

/-- The three addresses from `a` up read as the decimal digits stored there. -/
theorem Memory.read_writeBytes_bcdDigits (m : Memory) (a : Nat) (b : Byte) :
    ((m.writeBytes a (bcdDigits b)).read a).toNat = b.toNat / 100 ∧
    ((m.writeBytes a (bcdDigits b)).read (a + 1)).toNat = b.toNat / 10 % 10 ∧
    ((m.writeBytes a (bcdDigits b)).read (a + 2)).toNat = b.toNat % 10 := by
  have := b.isLt
  simp [Memory.read_writeBytes, bcdDigits]
  omega

theorem execLdB_next {x : Reg} {s : State} (h : s.i.toNat + 2 ≤ 0xFFF) :
    execLdB x s = .next (commit .next { s with mem := s.mem.writeBytes s.i.toNat (bcdDigits (s.reg x)) }) :=
  storeAtIndex_next _ (by rw [length_bcdDigits]; omega)

theorem execLdB_trap {x : Reg} {s : State} (h : 0xFFF < s.i.toNat + 2) :
    execLdB x s = .next (takeFault .addressOutOfRange (encode (.ldB x)) s) :=
  storeAtIndex_trap _ (by rw [length_bcdDigits]; omega) (by simp)

theorem execStoreRegs_trap {x : Reg} {s : State} (h : 0xFFF < s.i.toNat + x.val) :
    execStoreRegs x s = .next (takeFault .addressOutOfRange (encode (.storeRegs x)) s) :=
  storeAtIndex_trap _ (by rw [length_regsUpTo]; omega) (by simp)

/-- Settles O36: the store writes the three digits at I and nothing beside them. -/
theorem bcdStoresThreeDigits : Obligations.BcdStoresThreeDigits := by
  refine ⟨fun _ h => decodeWord_of_row (i := .ldB 0) h, fun x s h => ⟨_, execLdB_next h, ?_⟩,
    fun _ _ h => raises_of_takeFault (execLdB_trap h)⟩
  obtain ⟨hundreds, tens, ones⟩ := s.mem.read_writeBytes_bcdDigits s.i.toNat (s.reg x)
  exact ⟨hundreds, tens, ones, sameMemoryOutside_writeBytes s .next _ (length_bcdDigits _), storeCycle_commit ..⟩

/-- Settles O37: the store writes V0 to V[x] at I and nothing beside them. -/
theorem storeRegsStoresFromV0 : Obligations.StoreRegsStoresFromV0 := by
  refine ⟨fun _ h => decodeWord_of_row (i := .storeRegs 0) h, fun x s h => ⟨_, execStoreRegs_next h, ?_⟩,
    fun _ _ h => raises_of_takeFault (execStoreRegs_trap h)⟩
  exact ⟨fun _ hr => s.mem.read_writeBytes_regsUpTo _ s hr,
    sameMemoryOutside_writeBytes s .next _ (length_regsUpTo s x), storeCycle_commit ..⟩

/-! ## The load of registers from I (R165) -/

theorem registerCycle_setRegs (s : State) (v : Vector Byte 16) : RegisterCycle s (commit .next { s with v := v }) := by
  obtain ⟨-, hkept⟩ := pcCycle_commit s .next rfl
  exact ⟨rfl, hkept⟩

theorem getElem_setRegsFrom_readBytes (v : Vector Byte 16) (m : Memory) (a : Nat) {x r : Reg} (h : r ≤ x) :
    (setRegsFrom v 0 (m.readBytes a (x.val + 1)))[r.val] = m.read (a + r.val) := by
  have hlen : r.val < (m.readBytes a (x.val + 1)).length := by
    rw [Memory.length_readBytes]; exact Nat.lt_succ_of_le h
  rw [getElem_setRegsFrom, if_pos (Nat.zero_le _), Nat.sub_zero, List.getD_eq_getElem _ _ hlen,
    Memory.getElem_readBytes]

/-- Settles O38: V0 to V[x] get the bytes at I, and the registers above are none that the instruction may write. -/
theorem loadRegsLoadsFromV0 : Obligations.LoadRegsLoadsFromV0 := by
  refine ⟨fun _ h => decodeWord_of_row (i := .loadRegs 0) h, fun x s h => ⟨_, execLoadRegs_next h, ?_⟩,
    fun _ _ h => raises_of_takeFault (execLoadRegs_trap h)⟩
  refine ⟨fun _ hr => ?_, fun _ hr => ?_, registerCycle_setRegs ..⟩
  · rw [State.reg_commit]
    exact getElem_setRegsFrom_readBytes s.v s.mem _ hr
  · exact exec_reg_unwritten (i := .loadRegs x) (execLoadRegs_next h) fun hmem => not_le.2 hr (mem_regsTo.1 hmem)

/-- Settles O39: the load reads each register back from the address where the store put it. -/
theorem storeThenLoadRestoresRegisters : Obligations.StoreThenLoadRestoresRegisters := by
  intro x s t u w hin hstore hmem hi hload r hr
  obtain ⟨-, store, -⟩ := storeRegsStoresFromV0
  obtain ⟨-, load, -⟩ := loadRegsLoadsFromV0
  obtain ⟨_, ht, stored, -, -, -, hiStore, -⟩ := store x s hin
  cases ht.symm.trans hstore
  have hiLoad : u.i = s.i := hi.trans hiStore
  obtain ⟨_, hw, loaded, -⟩ := load x u (hiLoad ▸ hin)
  cases hw.symm.trans hload
  rw [loaded r hr, hmem, hiLoad, stored r hr]

end Sys2Proof.Machine
end

section
/-! SUPPORT. The family 44_display.md: 00E0 and DXYN write the framebuffer, DXYN writes VF besides (R180 to R186). -/

namespace Sys2Proof.Machine

/-! ## What both display instructions keep -/

/-- What is kept by an instruction that writes no more than the PC, general registers and the framebuffer: `PcCycle`
without the registers and the pixels. -/
def DisplayCycle (s t : State) : Prop :=
  t.i = s.i ∧ SameStack s t ∧ SameMemory s t ∧ TimersTicked s t ∧ CycleClosed s t

theorem displayCycle_commit (s : State) (v : Vector Byte 16) (fb : FrameBuffer) :
    DisplayCycle s (commit .next { s with v := v, fb := fb }) := by
  obtain ⟨-, hi, hstack, hmem, -, htimers, hclosed⟩ := pcCycle_commit s .next rfl
  exact ⟨hi, hstack, hmem, htimers, hclosed⟩

/-! ## 00E0 (R180) -/

@[simp] theorem pixel_clearFrame (y : Fin 32) (x : Fin 64) : clearFrame.pixel y x = false := by
  simp only [FrameBuffer.pixel, clearFrame, Vector.getElem_replicate]

/-- Settles O42: 00E0 commits the state as it was with the cleared frame. -/
theorem clsClearsEveryPixel : Obligations.ClsClearsEveryPixel :=
  ⟨fun _ h => decodeWord_eq_instr_iff.2 h.symm,
    fun s => ⟨_, rfl, pixel_clearFrame, rfl, fun _ => rfl, displayCycle_commit s s.v clearFrame⟩⟩

/-! ## DXYN (R181 to R185) -/

theorem flagByte_eq_one_iff {c : Bool} : flagByte c = 1 ↔ c = true := by cases c <;> decide

theorem flagByte_eq_zero_iff {c : Bool} : flagByte c = 0 ↔ c = false := by cases c <;> decide

/-- `drawRows_law` for the sprite a draw loads, which has fewer than 16 rows. -/
theorem drawSprite_law (s : State) (x0 y0 : Byte) (n : Nibble) :
    let d := drawSprite x0 y0 (s.mem.readBytes s.i.toNat n.toNat) s.fb
    (∀ py px, LandsOn s x0 y0 n.toNat py px → d.fb.pixel py px = !s.fb.pixel py px) ∧
    (∀ py px, ¬ LandsOn s x0 y0 n.toNat py px → d.fb.pixel py px = s.fb.pixel py px) ∧
    (d.collide = true ↔ ∃ py px, LandsOn s x0 y0 n.toNat py px ∧ s.fb.pixel py px = true) := by
  have rows : 0 + (s.mem.readBytes s.i.toNat n.toNat).length ≤ 32 := by
    have := n.isLt
    rw [Memory.length_readBytes]; omega
  have law := drawRows_law x0 y0 _ 0 ⟨s.fb, false⟩ rows
  simpa only [drawSprite, rowsLand_readBytes, Bool.false_eq_true, false_or] using law

/-- Settles O43: the draw commits what the compositor leaves of the framebuffer, and its collision in VF. -/
theorem drwXorsTheSprite : Obligations.DrwXorsTheSprite := by
  refine ⟨fun _ h => decodeWord_of_row (i := .drw 0 0 0) h, fun x y n s h => ⟨_, execDrw_next (by omega), ?_⟩,
    fun _ _ _ _ h0 h => raises_of_takeFault (execDrw_trap h0 (by omega))⟩
  obtain ⟨flipped, kept, collides⟩ := drawSprite_law s (s.reg x) (s.reg y) n
  rw [reg_commit_setReg, flagByte_eq_one_iff, flagByte_eq_zero_iff]
  refine ⟨flipped, kept, collides.2, fun clear => ?_, sameRegsBut_setReg _ .next VF _, rfl, displayCycle_commit ..⟩
  refine eq_false_of_ne_true fun hcollide => ?_
  obtain ⟨py, px, hland, hset⟩ := collides.1 hcollide
  exact Bool.false_ne_true ((clear py px hland).symm.trans hset)

/-! ## Drawing twice (R186) -/

/-- Where a sprite lands depends on memory and I alone. -/
theorem landsOn_congr {s t : State} (hmem : SameMemory s t) (hi : t.i = s.i) {x0 y0 : Byte} {n : Nat} {py : Fin 32}
    {px : Fin 64} : LandsOn t x0 y0 n py px ↔ LandsOn s x0 y0 n py px := by
  simp only [LandsOn, hi, hmem _]

/-- Settles O44: both draws land on the same pixels, so the second flips back what the first flipped, and it meets a
set pixel exactly where the first met a clear one. -/
theorem drawingTwiceRestoresTheFramebuffer : Obligations.DrawingTwiceRestoresTheFramebuffer := by
  intro x y x' y' n s t r u hin hfirst hfb hmem hi hx hy hsecond
  obtain ⟨-, draw, -⟩ := drwXorsTheSprite
  obtain ⟨_, ht, flipped, kept, -, -, -, -, hiFirst, -, hmemFirst, -⟩ := draw x y n s hin
  cases ht.symm.trans hfirst
  have hiSecond : r.i = s.i := hi.trans hiFirst
  have hmemSecond : SameMemory s r := fun a => by rw [hmem, hmemFirst]
  obtain ⟨_, hu, flippedBack, keptBack, collides, clear, -⟩ := draw x' y' n r (hiSecond ▸ hin)
  cases hu.symm.trans hsecond
  simp only [hx, hy, landsOn_congr hmemSecond hiSecond, hfb] at flippedBack keptBack collides clear
  refine ⟨fun py px => ?_, ?_⟩
  · by_cases hland : LandsOn s (s.reg x) (s.reg y) n.toNat py px
    · rw [flippedBack py px hland, flipped py px hland, Bool.not_not]
    · rw [keptBack py px hland, kept py px hland]
  · by_cases hclear : ∃ py px, LandsOn s (s.reg x) (s.reg y) n.toNat py px ∧ s.fb.pixel py px = false
    · obtain ⟨py, px, hland, hpixel⟩ := hclear
      have hflag : u.reg VF = 1 := collides ⟨py, px, hland, by rw [flipped py px hland, hpixel, Bool.not_false]⟩
      exact ⟨iff_of_true hflag ⟨py, px, hland, hpixel⟩, .inr hflag⟩
    · have hflag : u.reg VF = 0 := clear fun py px hland => by
        rw [flipped py px hland, Bool.not_eq_false']
        exact eq_true_of_ne_false fun hpixel => hclear ⟨py, px, hland, hpixel⟩
      exact ⟨iff_of_false (by rw [hflag]; decide) hclear, .inl hflag⟩

end Sys2Proof.Machine
end

section
/-! SUPPORT. The family 45_timer_input.md: the skips on a key write nothing but the PC (R200, R201), FX15 and FX18 set
one timer before the timer phase (R203, R204), FX0A waits for a press edge (R205, R206). -/

namespace Sys2Proof.Machine

/-! ## The skips on a key (R200, R201) -/

theorem advancePc_skip_pressed (pressed : Bool) (pc : Word) :
    advancePc (.skip (pressed == true)) pc = pc + (if pressed = true then 4 else 2) := by
  simp only [advancePc, beq_iff_eq]

theorem advancePc_skip_not_pressed (pressed : Bool) (pc : Word) :
    advancePc (.skip (pressed == false)) pc = pc + (if pressed = true then 2 else 4) := by
  cases pressed <;> rfl

/-- Settles O45: a register that names a key commits the state as it was, on that key's bit of the snapshot; any
other faults. (`skipOnKey` is the model's own function.) -/
theorem skipOnKeySnapshot : Obligations.SkipOnKey :=
  ⟨fun _ h => decodeWord_of_row (i := .skp 0) h, fun _ h => decodeWord_of_row (i := .sknp 0) h,
    fun x s h => ⟨_, skipOnKey_next (.skp x) true h, advancePc_skip_pressed .., pcCycle_commit s _ rfl⟩,
    fun x s h => ⟨_, skipOnKey_next (.sknp x) false h, advancePc_skip_not_pressed .., pcCycle_commit s _ rfl⟩,
    fun x _ h => ⟨raises_of_takeFault (skipOnKey_trap (.skp x) true h),
      raises_of_takeFault (skipOnKey_trap (.sknp x) false h)⟩⟩

/-! ## The timers (R203, R204) -/

/-- What is kept by an instruction of class Next that writes nothing but the timers: `PcCycle` with the PC in place of
the timers. -/
def TimerCycle (s t : State) : Prop :=
  t.pc = s.pc + 2 ∧ SameRegs s t ∧ t.i = s.i ∧ SameStack s t ∧ SameMemory s t ∧ SamePixels s t ∧ CycleClosed s t

theorem timerCycle_commit (s : State) (dt st : Byte) : TimerCycle s (commit .next { s with dt := dt, st := st }) := by
  obtain ⟨hregs, hi, hstack, hmem, hpixels, -, hclosed⟩ := pcCycle_commit s .next rfl
  exact ⟨rfl, hregs, hi, hstack, hmem, hpixels, hclosed⟩

theorem soundActive_iff (s : State) : s.outputs.soundActive = true ↔ 0 < s.st.toNat := by
  rw [State.outputs, bne_iff_ne, Nat.pos_iff_ne_zero, ne_eq, ne_eq, ← BitVec.toNat_inj]
  rfl

/-- Settles O47: the timer phase ticks V[x] in the timer set, so the sound goes on for V[x] above 1 only. -/
theorem setTimerThenTick : Obligations.SetTimerThenTick := by
  refine ⟨fun _ h => decodeWord_of_row (i := .ldDtVx 0) h, fun _ h => decodeWord_of_row (i := .ldStVx 0) h,
    fun x s => ⟨_, rfl, tickTimer_toNat _, tickTimer_toNat _, timerCycle_commit s (s.reg x) s.st⟩,
    fun x s => ⟨_, rfl, tickTimer_toNat _, tickTimer_toNat _, ?_, timerCycle_commit s s.dt (s.reg x)⟩⟩
  have ticked := tickTimer_toNat (s.reg x)
  rw [soundActive_iff, exec_ldStVx_st (x := x) (s := s) rfl, ticked]
  omega

/-! ## The wait for a key (R205, R206) -/

theorem key_toNat (k : Fin 16) : (BitVec.ofNat 8 k.val).toNat = k.val := by
  rw [BitVec.toNat_ofNat]; omega

/-- Settles O48: FX0A commits the lowest press edge in `V[x]`, or, with none, the state as it was, waiting. -/
theorem keyWaitTakesTheLowestPressEdge : Obligations.KeyWaitTakesTheLowestPressEdge := by
  refine ⟨fun _ h => decodeWord_of_row (i := .ldVxK 0) h, fun x s k hkey hprev hbelow => ?_, fun x s hheld => ?_⟩
  · have hedge : s.pressEdge k = true := (pressEdge_iff s k).2 ⟨hkey, hprev⟩
    have hlowest : ∀ j, j < k → s.pressEdge j = false := fun j hj => eq_false_of_ne_true fun he => by
      obtain ⟨hj', hp⟩ := (pressEdge_iff s j).1 he
      exact ne_true_of_eq_false hp (hbelow j hj hj')
    exact ⟨_, execLdVxK_next (lowestEdge_some s k hedge hlowest), by rw [reg_commit_setReg, key_toNat],
      frame_setReg ..⟩
  · have hnone : s.lowestEdge = none := (lowestEdge_none s).2 fun k ⟨hkey, hprev⟩ =>
      ne_true_of_eq_false hprev (hheld k hkey)
    exact ⟨_, execLdVxK_waits hnone, rfl, fun _ => rfl, rfl, ⟨rfl, fun _ => rfl⟩, fun _ => rfl, fun _ _ => rfl,
      rfl, rfl, rfl, rfl, ⟨rfl, rfl, rfl, rfl⟩, rfl, rfl, rfl, rfl⟩

end Sys2Proof.Machine
end

section
/-! SUPPORT. The family 60_exceptions.md: the table of R220 as the step obeys it (`step_byTable`), what a fault commits
(R223), and the invariant over the host's two transfers, `load` and `reset` (R226, R251, R252). -/

namespace Sys2Proof.Machine

/-! ## The table of R220, phase by phase (R222) -/

theorem fetch_some {s : State} {w : Word} (h : fetch s = some w) :
    s.pc.toNat ≤ 0xFFE ∧ joinBytes (s.mem.read s.pc.toNat) (s.mem.read (s.pc.toNat + 1)) = w := by
  unfold fetch at h
  split at h
  · next hp => exact ⟨hp, Option.some.inj h⟩
  · cases h

theorem faultOf_outside {s : State} (h : 0xFFE < s.pc.toNat) : faultOf s = some .fetchOutOfRange := if_pos h

theorem faultOf_unknown {s : State} {w v : Word} (hf : fetch s = some w) (hd : decodeWord w = .unknown v) :
    faultOf s = some .unknownOpcode := by
  obtain ⟨hp, rfl⟩ := fetch_some hf
  simp only [faultOf, if_neg (Nat.not_lt.2 hp), hd]

theorem faultOf_run {s : State} {w : Word} {i : Instr} (hf : fetch s = some w) (hd : decodeWord w = .instr i) :
    faultOf s = instrFault i s := by
  obtain ⟨hp, rfl⟩ := fetch_some hf
  simp only [faultOf, if_neg (Nat.not_lt.2 hp), hd]

theorem faultingWord_outside {s : State} (h : 0xFFE < s.pc.toNat) : faultingWord s = 0 := if_pos h

theorem faultingWord_inside {s : State} {w : Word} (h : fetch s = some w) : faultingWord s = w := by
  obtain ⟨hp, rfl⟩ := fetch_some h
  exact if_neg (Nat.not_lt.2 hp)

theorem eq_of_decodeWord_unknown {w v : Word} (h : decodeWord w = .unknown v) : v = w := by
  obtain _ | _ := h ▸ decodeWord_answers w
  rfl

/-- All a step of a running CORE can do, by the table: the fault it names, recorded with the word fetched, or, where it
names none, the commit of what an instruction stages. -/
theorem step_byTable {s : State} (hr : s.faulted = false) :
    (∃ c, faultOf s = some c ∧ step s = .next (takeFault c (faultingWord s) s).closeCycle) ∨
    (faultOf s = none ∧ ∃ i k u, Commits i s k u ∧ step s = .next (commit k u).closeCycle) := by
  rcases Nat.lt_or_ge 0xFFE s.pc.toNat with hp | hp
  · exact .inl ⟨.fetchOutOfRange, faultOf_outside hp,
      by rw [faultingWord_outside hp, step_stop hr (frontEnd_outside hp)]⟩
  · have hf := fetch_inside hp
    generalize joinBytes _ _ = w at hf
    cases hd : decodeWord w with
    | unknown v =>
      obtain rfl := eq_of_decodeWord_unknown hd
      exact .inl ⟨.unknownOpcode, faultOf_unknown hf hd,
        by rw [faultingWord_inside hf, step_stop hr (frontEnd_unknown hf hd)]⟩
    | instr i =>
      have hs : step s = mapNext State.closeCycle (exec i s) := step_run hr (frontEnd_run hf hd)
      rw [faultOf_run hf hd]
      rcases exec_cases i s with ⟨c, hc, he⟩ | ⟨hn, k, u, hu⟩
      · have hw : faultingWord s = encode i := by rw [faultingWord_inside hf, decodedWordIsItsEncoding w i hd]
        exact .inl ⟨c, hc, by rw [hs, he, mapNext_next, hw]⟩
      · exact .inr ⟨hn, i, k, u, hu, by rw [hs, hu.eq, mapNext_next]⟩

theorem sameRecord_commit {s u : State} (k : PcClass) (h : StagedFrom s u) : SameRecord s (commit k u).closeCycle := by
  simp [SameRecord, h.faulted, h.faultCode, h.faultPc, h.faultInstr]

/-- Settles O10: a fault records the code of the table's cause, a commit keeps the record. -/
theorem cycleFaultsExactlyByTheTable : Obligations.CycleFaultsExactlyByTheTable := by
  intro s hr
  rcases step_byTable hr with ⟨c, hc, hs⟩ | ⟨hn, i, k, u, hu, hs⟩
  · refine ⟨_, hs, ?_⟩
    rw [hc]
    exact ⟨rfl, rfl⟩
  · refine ⟨_, hs, ?_⟩
    rw [hn]
    obtain ⟨hfaulted, hrecord⟩ := sameRecord_commit k hu.staged
    exact ⟨hfaulted.trans hr, hrecord⟩

/-- Settles O11: only a fault of the table stops a running CORE, and a stopped CORE stands still. -/
theorem faultCommitsOnlyTheRecord : Obligations.FaultCommitsOnlyTheRecord := by
  intro s t hr h ht
  rcases step_byTable hr with ⟨c, hc, hs⟩ | ⟨-, i, k, u, hu, hs⟩
  · obtain rfl := Host.Outcome.next.inj (hs.symm.trans h)
    exact ⟨⟨c, hc, rfl⟩, rfl, rfl, allButRecord_takeFault c (faultingWord s) s, rfl, rfl, rfl, rfl,
      faultedCoreStandsStill _ rfl⟩
  · obtain rfl := Host.Outcome.next.inj (hs.symm.trans h)
    obtain ⟨hfaulted, -⟩ := sameRecord_commit k hu.staged
    exact absurd (hfaulted.symm.trans ht) (ne_true_of_eq_false hr)

/-! ## The host's transfers (R226, R250 to R252) -/

/-- All an accepted `load` can do: while the window is open, write memory alone or record LoadError, and close the
window. -/
theorem loadProgram_cases {p : List Byte} {s t : State} (h : loadProgram p s = .next t) :
    s.loadOpen = true ∧
    (t = { s with mem := s.mem.writeBytes Config.progBase p, loadOpen := false } ∨
      t = { takeFault .loadError 0 s with loadOpen := false }) := by
  unfold loadProgram at h
  split at h
  · next ho =>
    split at h
    · exact ⟨ho, .inl (Host.Outcome.next.inj h).symm⟩
    · exact ⟨ho, .inr (Host.Outcome.next.inj h).symm⟩
  · cases h

/-- An open window means that the CORE neither waits nor is stopped, so the memory under PC may change. -/
theorem CoreInv.loadProgram {p : List Byte} {s t : State} (hs : CoreInv s) (h : loadProgram p s = .next t) :
    CoreInv t := by
  have hmem : t.mem.wf := wf_loadProgram hs.memory h
  obtain ⟨ho, ht⟩ := loadProgram_cases h
  obtain ⟨hfaulted, hwaiting⟩ := hs.window ho
  rcases ht with rfl | rfl
  · exact { hs with
      memory := hmem
      window := fun hl => nomatch hl
      waits := fun hw => absurd hw (ne_true_of_eq_false hwaiting) }
  · exact { hs.takeFault .loadError 0 with memory := hmem }

/-- `reset` gives the reset state but for the font and the ports, which the invariant leaves free. -/
theorem coreInv_assertReset (s : State) : CoreInv s.assertReset :=
  have hreset : CoreInv State.reset := resetMeetsTheInvariant
  { hreset with
    memory := wf_reset s.mem.font
    waits := fun hw => nomatch hw }

/-- Settles O57: `load` has its move in the open window alone; `reset` needs no invariant before it. -/
theorem loadAndResetKeepTheInvariant : Obligations.LoadAndResetKeepTheInvariant :=
  ⟨fun _ _ _ hs h => hs.loadProgram h, coreInv_assertReset⟩

end Sys2Proof.Machine
end

section
/-! SUPPORT. The family 70_reset_and_hazards.md: what the one `load` of a program does at each length (R251, R252), that
a load and a cycle close its window (R254), and the `reset` input (R250). -/

namespace Sys2Proof.Machine

/-! ## The program loader (R251, R252) -/

theorem programWellFormed_iff (p : List Byte) : programWellFormed p = true ↔ p.length ≤ 3584 := decide_eq_true_iff

theorem loadProgram_fits {p : List Byte} {s : State} (ho : s.loadOpen = true) (hp : p.length ≤ 3584) :
    loadProgram p s = .next { s with mem := s.mem.writeBytes Config.progBase p, loadOpen := false } := by
  rw [loadProgram, if_pos ho, if_pos ((programWellFormed_iff p).2 hp)]

theorem loadProgram_oversized {p : List Byte} {s : State} (ho : s.loadOpen = true) (hp : 3584 < p.length) :
    loadProgram p s = .next { takeFault .loadError 0 s with loadOpen := false } := by
  rw [loadProgram, if_pos ho, if_neg fun hw => Nat.not_le.2 hp ((programWellFormed_iff p).1 hw)]

theorem loadProgram_closed {s : State} (h : s.loadOpen = false) (p : List Byte) :
    loadProgram p s = .refused .loadOutsideWindow := by
  rw [loadProgram, if_neg (ne_true_of_eq_false h)]

theorem Memory.read_writeBytes_inside (m : Memory) (a : Nat) {bs : List Byte} {j : Nat} (h : j < bs.length) :
    (m.writeBytes a bs).read (a + j) = bs[j] := by
  rw [Memory.read_writeBytes, if_pos (Nat.le_add_right ..), Nat.add_sub_cancel_left, List.getD_eq_getElem _ _ h]

/-! ## The window of `load` (R254) -/

theorem loadProgram_closes_window {p : List Byte} {s t : State} (h : loadProgram p s = .next t) :
    t.loadOpen = false := by
  obtain ⟨-, rfl | rfl⟩ := loadProgram_cases h
  · rfl
  · rfl

theorem step_closes_window {s t : State} (hr : s.faulted = false) (h : step s = .next t) : t.loadOpen = false := by
  rcases step_byTable hr with ⟨c, -, hs⟩ | ⟨-, i, k, u, -, hs⟩
  · cases hs.symm.trans h
    exact State.closeCycle_loadOpen _
  · cases hs.symm.trans h
    exact State.closeCycle_loadOpen _

/-- Settles O53: the load in its window writes the program's bytes alone, and a load or a cycle closes the window. -/
theorem loadCopiesTheProgram : Obligations.LoadCopiesTheProgram := by
  refine ⟨fun p s ho hp => ⟨_, loadProgram_fits ho hp, ?copied, ?outside, ?kept⟩, ?second, ?late⟩
  case copied => exact fun j hj => s.mem.read_writeBytes_inside Config.progBase hj
  case outside => exact fun b hb => s.mem.read_writeBytes_outside hb
  case kept =>
    exact ⟨fun _ => rfl, rfl, rfl, ⟨rfl, fun _ => rfl⟩, fun _ _ => rfl, rfl, rfl, rfl, rfl, rfl, rfl, rfl, rfl⟩
  case second => exact fun p q s t h => loadProgram_closed (loadProgram_closes_window h) q
  case late => exact fun q s t hr h => loadProgram_closed (step_closes_window hr h) q

/-- Settles O54: the load takes the fault alone, and a stopped CORE stands still. -/
theorem oversizedLoadStopsTheCore : Obligations.OversizedLoadStopsTheCore := by
  intro p s ho hp
  exact ⟨_, loadProgram_oversized ho hp, rfl, rfl, rfl, rfl, allButRecord_takeFault .loadError 0 s,
    faultedCoreStandsStill _ rfl⟩

/-! ## The `reset` input (R226, R250) -/

theorem instant_reset (stepIn : Bool) (s : State) : instant true stepIn s = .next s.assertReset := rfl

theorem reg_assertReset (s : State) (r : Reg) : s.assertReset.reg r = 0 := Vector.getElem_replicate ..

theorem slot_assertReset (s : State) (j : Fin 16) : s.assertReset.slot j = 0 := Vector.getElem_replicate ..

theorem pixel_assertReset (s : State) (y : Fin 32) (x : Fin 64) : s.assertReset.fb.pixel y x = false := by
  simp [FrameBuffer.pixel, State.assertReset, State.resetWith]

theorem read_assertReset (s : State) (a : Nat) :
    s.assertReset.mem.read a = if h : a < 80 then s.mem.font[a] else 0 := read_resetWith s.mem.font a

/-- Settles O52: `reset` wins over `step`, and `assertReset` takes every value from the reset state. -/
theorem resetInputRestoresEveryState : Obligations.ResetInputRestoresEveryState := by
  intro s stepIn
  refine ⟨s.assertReset, instant_reset stepIn s, reg_assertReset s, rfl, rfl, rfl, slot_assertReset s, rfl, rfl,
    ?font, ?zeros, pixel_assertReset s, rfl, rfl, rfl, rfl, rfl, rfl⟩
  case font => exact fun a h => (read_assertReset s a).trans (dif_pos h)
  case zeros => exact fun a h => (read_assertReset s a).trans (dif_neg (Nat.not_lt.2 h))

end Sys2Proof.Machine
end
